-- ==== Sys2Proof/Word.lean ====
section
/-!
DEFINITION. The word types of the core and the size of its memory (spec/00_scope.md R5).
Register values, addresses held in registers and instruction words are bit vectors; a memory index is a natural number,
since effective addresses are exact sums (spec/20_memory.md R64).
-/

namespace Sys2Proof

/-- A general register, a memory byte, the immediate NN: 8 bits (R5). -/
abbrev Byte := BitVec 8

/-- I, PC, a stack entry, an instruction word: 16 bits (R5). -/
abbrev Word := BitVec 16

/-- The immediate NNN: a 12-bit address (R90). -/
abbrev Addr12 := BitVec 12

/-- The number of a general register, 0..15; every 4-bit value names one (R20, R92). -/
abbrev Reg := Fin 16

/-- VF, the flag register, is general register 15 (R21). -/
def flagReg : Reg := 15

/-- "fixed-size byte sequence, size 4096" (R5, R60). -/
def memSize : Nat := 4096

/-- The ROM load offset and the reset PC, 512 (R5, R24). -/
def romBase : Nat := 0x200

/-- A ROM longer than 4096 − 512 bytes cannot be placed (R342). -/
def maxRom : Nat := 3584

end Sys2Proof
end

