-- ==== Sys2Proof/Syntax.lean ====
section
/-!
DEFINITION. The 35 instructions of spec/30_encoding.md R99, one constructor per row of spec/opcode_table.json.
`x`, `y` are register numbers, `nn` a byte, `nnn` a 12-bit address, `n` the row count of DXYN.
-/

namespace Sys2Proof

inductive Instr where
  /-- 00E0 CLS (R230) -/
  | cls
  /-- 00EE RET (R140) -/
  | ret
  /-- 0NNN SYS addr (R141) -/
  | sys (nnn : Addr12)
  /-- 1NNN JP addr (R142) -/
  | jp (nnn : Addr12)
  /-- 2NNN CALL addr (R143) -/
  | call (nnn : Addr12)
  /-- 3XNN SE Vx, byte (R160) -/
  | seVxNn (x : Reg) (nn : Byte)
  /-- 4XNN SNE Vx, byte (R161) -/
  | sneVxNn (x : Reg) (nn : Byte)
  /-- 5XY0 SE Vx, Vy (R162) -/
  | seVxVy (x y : Reg)
  /-- 6XNN LD Vx, byte (R181) -/
  | ldVxNn (x : Reg) (nn : Byte)
  /-- 7XNN ADD Vx, byte (R182) -/
  | addVxNn (x : Reg) (nn : Byte)
  /-- 8XY0 LD Vx, Vy (R183) -/
  | ldVxVy (x y : Reg)
  /-- 8XY1 OR Vx, Vy (R184) -/
  | or (x y : Reg)
  /-- 8XY2 AND Vx, Vy (R185) -/
  | and (x y : Reg)
  /-- 8XY3 XOR Vx, Vy (R186) -/
  | xor (x y : Reg)
  /-- 8XY4 ADD Vx, Vy (R187) -/
  | addVxVy (x y : Reg)
  /-- 8XY5 SUB Vx, Vy (R188) -/
  | sub (x y : Reg)
  /-- 8XY6 SHR Vx: Y is encoded, and has no effect (R189) -/
  | shr (x y : Reg)
  /-- 8XY7 SUBN Vx, Vy (R190) -/
  | subn (x y : Reg)
  /-- 8XYE SHL Vx: Y is encoded, and has no effect (R191) -/
  | shl (x y : Reg)
  /-- 9XY0 SNE Vx, Vy (R163) -/
  | sneVxVy (x y : Reg)
  /-- ANNN LD I, addr (R210) -/
  | ldI (nnn : Addr12)
  /-- BNNN JP V0, addr (R144) -/
  | jpV0 (nnn : Addr12)
  /-- CXNN RND Vx, byte (R192) -/
  | rnd (x : Reg) (nn : Byte)
  /-- DXYN DRW Vx, Vy, nibble (R231) -/
  | drw (x y : Reg) (n : Fin 16)
  /-- EX9E SKP Vx (R164) -/
  | skp (x : Reg)
  /-- EXA1 SKNP Vx (R165) -/
  | sknp (x : Reg)
  /-- FX07 LD Vx, DT (R250) -/
  | ldVxDt (x : Reg)
  /-- FX0A LD Vx, K (R251) -/
  | ldVxK (x : Reg)
  /-- FX15 LD DT, Vx (R252) -/
  | ldDtVx (x : Reg)
  /-- FX18 LD ST, Vx (R253) -/
  | ldStVx (x : Reg)
  /-- FX1E ADD I, Vx (R211) -/
  | addIVx (x : Reg)
  /-- FX29 LD F, Vx (R212) -/
  | ldFVx (x : Reg)
  /-- FX33 LD B, Vx (R213) -/
  | ldBVx (x : Reg)
  /-- FX55 LD [I], Vx (R214) -/
  | ldMemVx (x : Reg)
  /-- FX65 LD Vx, [I] (R215) -/
  | ldVxMem (x : Reg)
  deriving DecidableEq, Repr

end Sys2Proof
end

