-- ==== Sys2Proof/WellFormed.lean ====
section
/-!
DEFINITION. Which terms of Instr are instructions of the machine. Register numbers, immediates and counts are bounded by
their types (spec/30_encoding.md R92); the one further condition is that of the SYS row: the words 0x00E0 and 0x00EE are
CLS and RET (R93, R141).
-/

namespace Sys2Proof

/-- NNN ∉ {0x0E0, 0x0EE} (R141). -/
def sysTargetOk (nnn : Addr12) : Bool := nnn != 0x0E0 && nnn != 0x0EE

/-- The term is some word's instruction. -/
def Instr.wf (i : Instr) : Bool :=
  match i with
  | .sys nnn => sysTargetOk nnn
  | .cls | .ret | .jp _ | .call _ | .seVxNn _ _ | .sneVxNn _ _ | .seVxVy _ _ | .ldVxNn _ _ | .addVxNn _ _
  | .ldVxVy _ _ | .or _ _ | .and _ _ | .xor _ _ | .addVxVy _ _ | .sub _ _ | .shr _ _ | .subn _ _ | .shl _ _
  | .sneVxVy _ _ | .ldI _ | .jpV0 _ | .rnd _ _ | .drw _ _ _ | .skp _ | .sknp _ | .ldVxDt _ | .ldVxK _
  | .ldDtVx _ | .ldStVx _ | .addIVx _ | .ldFVx _ | .ldBVx _ | .ldMemVx _ | .ldVxMem _ => true

end Sys2Proof
end

