-- ==== Sys2Proof/Config.lean ====
section
/-!
DEFINITION. The parameters of the core (spec/00_scope.md R6 to R9) and the one free value (spec/43_alu.md R192).
The parameters are a structure, so that a statement over every state holds for every configuration: see notes/assumptions/1.md.
-/

namespace Sys2Proof

/-- Parameter I_OVERFLOW: what FX1E does past 0xFFFF (R8). -/
inductive IOverflow where
  | wrap
  | fatal
  deriving DecidableEq, Repr

/-- The parameters of the core: fixed for a machine, no instruction and no host event changes them (R35). -/
structure Config where
  /-- CLOCK_HZ (R6). -/
  clockHz : Nat
  /-- STACK_CAPACITY: `none` is unbounded, `some C` a bound (R7). -/
  stackCapacity : Option Nat
  /-- I_OVERFLOW (R8). -/
  iOverflow : IOverflow
  /-- FONT: 16 glyphs of 5 bytes, glyph g at 5g..5g+4 (R9, R65). -/
  font : Vector Byte 80
  deriving DecidableEq, Repr

namespace Config

/-- `K = CLOCK_HZ / 60`: one 60Hz-equivalent frame is K cycles (R6, R310). -/
def k (c : Config) : Nat := c.clockHz / 60

/-- The legal configurations: CLOCK_HZ = 60·K with K ≥ 1 (R6) and a bound C ≥ 1 on the stack, if any (R7). -/
def wf (c : Config) : Bool :=
  decide (c.clockHz % 60 = 0) && decide (1 ≤ c.k) &&
    match c.stackCapacity with
    | none => true
    | some cap => decide (1 ≤ cap)

/-- The default FONT of R65, glyph by glyph (PRESUMED: general knowledge G2 of the spec; notes/assumptions/3.md). -/
def defaultFont : Vector Byte 80 := #v[
  0xF0, 0x90, 0x90, 0x90, 0xF0,  0x20, 0x60, 0x20, 0x20, 0x70,
  0xF0, 0x10, 0xF0, 0x80, 0xF0,  0xF0, 0x10, 0xF0, 0x10, 0xF0,
  0x90, 0x90, 0xF0, 0x10, 0x10,  0xF0, 0x80, 0xF0, 0x10, 0xF0,
  0xF0, 0x80, 0xF0, 0x90, 0xF0,  0xF0, 0x10, 0x20, 0x40, 0x40,
  0xF0, 0x90, 0xF0, 0x90, 0xF0,  0xF0, 0x90, 0xF0, 0x10, 0xF0,
  0xF0, 0x90, 0xF0, 0x90, 0x90,  0xE0, 0x90, 0xE0, 0x90, 0xE0,
  0xF0, 0x80, 0x80, 0x80, 0xF0,  0xE0, 0x90, 0x90, 0x90, 0xE0,
  0xF0, 0x80, 0xF0, 0x80, 0xF0,  0xF0, 0x80, 0xF0, 0x80, 0x80]

/-- The configuration of the reset state: the defaults of R7, R8, R9, and K = 1
(DESIGN CHOICE: R6 gives no default; notes/assumptions/2.md). -/
def default : Config where
  clockHz := 60
  stackCapacity := none
  iOverflow := .wrap
  font := defaultFont

/-- The `rand` input: the byte of the n-th draw. A FREE VALUE, under no law (R10, R192, D19; notes/assumptions/5.md). -/
opaque randByte : Nat → Byte

end Config

end Sys2Proof
end

