-- ==== Sys2Proof/Machine/State.lean ====
section
/-!
DEFINITION. The state of the core (spec/10_state.md R20 to R31, spec/20_memory.md R60), the fault record
(spec/60_exceptions.md R301, R302), the events of its ports (R40), and the state after reset (R36).
-/

namespace Sys2Proof.Machine

/-- The kinds of fatal condition (R301). -/
inductive FatalKind where
  | invalidInstruction
  | stackUnderflow
  | memOutOfBounds
  | keyIndexOutOfRange
  | stackOverflow
  | iOverflowFault
  deriving DecidableEq, Repr

/-- The numeric codes of R301. -/
def FatalKind.code : FatalKind → Nat
  | .invalidInstruction => 1
  | .stackUnderflow => 2
  | .memOutOfBounds => 3
  | .keyIndexOutOfRange => 4
  | .stackOverflow => 5
  | .iOverflowFault => 6

/-- The fault record (R302). Its `code` is `kind.code`: stored once, as the kind. -/
structure FatalRecord where
  kind : FatalKind
  /-- The address of the instruction of the cycle that faulted, not advanced. -/
  pc : Word
  /-- The fetched word; absent only where the fetch itself raised. -/
  opcode : Option Word
  /-- The memory index, for MEM_OUT_OF_BOUNDS. -/
  addr : Option Nat
  /-- The key index, for KEY_INDEX_OUT_OF_RANGE. -/
  key : Option Byte
  deriving DecidableEq, Repr

/-- The record's numeric code (R302). -/
def FatalRecord.code (f : FatalRecord) : Nat := f.kind.code

/-- STATUS (R31). -/
inductive Status where
  | running
  | halted (f : FatalRecord)
  deriving DecidableEq, Repr

/-- The framebuffer: 32 rows of 64 one-bit pixels, FB[x][y] is bit x of row y (R28; notes/assumptions/18.md). -/
abbrev FrameBuffer := Vector (BitVec 64) 32

/-- An event on an output port (R40). -/
inductive Event where
  /-- `present` with the framebuffer snapshot `fb_out`. -/
  | present (fb : FrameBuffer)
  /-- `audio_start(d)`. -/
  | audioStart (d : Byte)
  /-- `audio_stop`. -/
  | audioStop
  deriving DecidableEq, Repr

/-- What the host sends between two cycles (R40, R125, R315). -/
inductive HostEvent where
  /-- A new 16-bit key state. -/
  | keys (k : BitVec 16)
  /-- A `frame` strobe. -/
  | frame
  /-- The `reset` strobe with a ROM image. -/
  | reset (rom : List Byte)
  deriving DecidableEq, Repr

/-- Memory: address and byte pairs, addresses strictly rising, no entry equal to the byte's reset contents
(`Memory.wf` in Ops.lean). -/
abbrev Memory := List Host.Cell

/-- The whole state of the core, beside the parameters it was built with and what the model keeps of its ports. -/
structure State where
  /-- V0..VF (R20, R21). -/
  regs : Vector Byte 16
  /-- I (R23). -/
  i : Word
  /-- PC: during an instruction, the address of its first byte (R24). -/
  pc : Word
  /-- STACK, the top entry first (R25). -/
  stack : List Word
  /-- DT_TICKS (R26). -/
  dtTicks : Nat
  /-- ST_TICKS (R27). -/
  stTicks : Nat
  /-- ST_ACTIVE (R27). -/
  stActive : Bool
  /-- FB (R28). -/
  fb : FrameBuffer
  /-- DIRTY (R29). -/
  dirty : Bool
  /-- KEYS: bit k is KEYS[k] (R30). -/
  keys : BitVec 16
  /-- STATUS, with the fault record when halted (R31, R302). -/
  status : Status
  /-- MEM (R60). -/
  mem : Memory
  /-- The parameters CLOCK_HZ, STACK_CAPACITY, I_OVERFLOW, FONT: nothing writes them (R35; notes/assumptions/1.md). -/
  cfg : Config
  /-- The model's own: how many random bytes were drawn (R192; notes/assumptions/5.md). -/
  draws : Nat
  /-- The model's own: every event emitted so far, oldest first (R40; notes/assumptions/6.md). -/
  events : List Event
  /-- The model's own: the host events still to land, the first list before the next cycle
  (R125; notes/assumptions/7.md). -/
  inputs : List (List HostEvent)
  deriving DecidableEq, Repr

/-- Why the machine could stop with no next state: nothing does. Every fatal condition of the spec is entry into
`Status.halted`, a next state (R303; notes/assumptions/4.md), so this type has no constructor. Safe: the halted state is
the spec's own. -/
inductive Fault where
  deriving DecidableEq, Repr

/-- Why the model gives no next state. -/
inductive Refusal where
  /-- Raised by an arm of `exec` whose instruction has no meaning yet (no arm of this model is such). Safe. -/
  | notModelled (mnemonic : String)
  /-- Raised by `step` where the host's `reset` strobe brings a ROM that is empty or longer than 3584 bytes: "no cycle
  runs and no STATUS exists" (R342). Safe: the spec gives such a launch no state. -/
  | romLoadFailure
  deriving DecidableEq, Repr

/-- The state after reset (R36), under the default parameters, before a ROM is placed: memory lists nothing, so every
byte reads as its reset contents (R78; notes/assumptions/8.md). -/
def State.reset : State where
  regs := Vector.replicate 16 0
  i := 0
  pc := 0x200
  stack := []
  dtTicks := 0
  stTicks := 0
  stActive := false
  fb := Vector.replicate 32 0
  dirty := false
  keys := 0
  status := .running
  mem := []
  cfg := Config.default
  draws := 0
  events := []
  inputs := []

end Sys2Proof.Machine
end

