-- ==== Sys2Proof/Machine/Ops.lean ====
section
/-!
DEFINITION. The named operations over registers, memory, stack and status that every meaning goes through:
spec/00_scope.md R13, spec/10_state.md, spec/20_memory.md R61 to R66, spec/41_control_transfer.md R145, R146,
spec/60_exceptions.md R303 and spec/70_reset_and_hazards.md R340.
-/

namespace Sys2Proof.Machine

/-- What an instruction answers. -/
abbrev Result := Host.Outcome State Fault Refusal

/-! Registers (R20, R23, R24). -/

/-- `V[r]`. -/
def State.reg (s : State) (r : Reg) : Byte := s.regs[r.val]

/-- `V[r] <- v`. -/
def State.setReg (s : State) (r : Reg) (v : Byte) : State := { s with regs := s.regs.set r.val v }

/-- `I <- v`. -/
def State.setI (s : State) (v : Word) : State := { s with i := v }

/-- `PC <- target`. -/
def State.setPc (s : State) (target : Word) : State := { s with pc := target }

/-- The plain advance, `PC <- PC + 2` (R122). -/
def State.advance (s : State) : State := s.setPc (s.pc + 2)

/-- A skip: `PC <- PC + 4` if the condition holds, else `PC <- PC + 2` (R122). -/
def State.skipIf (s : State) (cond : Bool) : State := s.setPc (if cond then s.pc + 4 else s.pc + 2)

/-! Memory (R60 to R66). -/

/-- The reset contents of a byte no ROM covers, which is what an unlisted address reads as: FONT at 0x000..0x04F, 0
elsewhere (R65, R78; notes/assumptions/9.md). -/
def Memory.background (c : Config) (a : Nat) : Byte := if h : a < 80 then c.font[a] else 0

/-- The byte a memory holds at an address. -/
def Memory.read (c : Config) : Memory → Nat → Byte
  | [], a => Memory.background c a
  | (k, v) :: m, a => if a = k then v else Memory.read c m a

/-- A cell put in its place among rising addresses. -/
def Memory.insert (a : Nat) (v : Byte) : Memory → Memory
  | [] => [(a, v)]
  | (k, w) :: m =>
    if a < k then (a, v) :: (k, w) :: m
    else if a = k then (a, v) :: m
    else (k, w) :: Memory.insert a v m

/-- No cell at an address. -/
def Memory.erase (a : Nat) (m : Memory) : Memory := m.filter fun cell => cell.1 != a

/-- A byte written: a byte equal to the reset contents is not listed. -/
def Memory.write (c : Config) (m : Memory) (a : Nat) (v : Byte) : Memory :=
  if v = Memory.background c a then Memory.erase a m else Memory.insert a v m

/-- The canonical form: addresses of the space, strictly rising, no entry equal to what an unlisted address reads as. -/
abbrev Memory.wf (c : Config) (m : Memory) : Prop :=
  m.Pairwise (fun p q => p.1 < q.1) ∧ ∀ p ∈ m, p.1 < memSize ∧ p.2 ≠ Memory.background c p.1

/-- `MEM[a]`. -/
def State.byteAt (s : State) (a : Nat) : Byte := Memory.read s.cfg s.mem a

/-- `MEM[a] <- v`. -/
def State.setByte (s : State) (a : Nat) (v : Byte) : State := { s with mem := Memory.write s.cfg s.mem a v }

/-- `MemRead(a, 1)` (R61): the error is the index that is out of bounds. -/
def State.memRead (s : State) (a : Nat) : Except Nat Byte :=
  if a < memSize then .ok (s.byteAt a) else .error a

/-- `MemWrite(a, 1, v)` (R62). -/
def State.memWrite (s : State) (a : Nat) (v : Byte) : Except Nat State :=
  if a < memSize then .ok (s.setByte a v) else .error a

/-- `Fetch(PC)` (R63): the byte at PC is bits 15:8; the error is the first index that is out of bounds. -/
def State.fetch (s : State) : Except Nat Word :=
  match s.memRead s.pc.toNat with
  | .error a => .error a
  | .ok hi =>
    match s.memRead (s.pc.toNat + 1) with
    | .error a => .error a
    | .ok lo => .ok (joinBytes hi lo)

/-- The bytes at a, a+1, .. in increasing order, or the first index that is out of bounds (R69). -/
def State.readBytes (s : State) (a : Nat) : Nat → Except Nat (List Byte)
  | 0 => .ok []
  | n + 1 =>
    match s.memRead a with
    | .error e => .error e
    | .ok b =>
      match State.readBytes s (a + 1) n with
      | .error e => .error e
      | .ok bs => .ok (b :: bs)

/-- Bytes stored at a, a+1, .. in increasing order. The state holds the bytes stored so far; the index, if any, is the
first one that is out of bounds (R69, R70). -/
def State.storeBytes (s : State) (a : Nat) : List Byte → State × Option Nat
  | [] => (s, none)
  | b :: bs =>
    match s.memWrite a b with
    | .error e => (s, some e)
    | .ok s' => State.storeBytes s' (a + 1) bs

/-- Registers loaded in the order listed, register k from base + k. The state holds the registers loaded so far; the
index, if any, is the first one that is out of bounds (R69, R70). -/
def State.loadRegs (s : State) (base : Nat) : List Reg → State × Option Nat
  | [] => (s, none)
  | r :: rs =>
    match s.memRead (base + r.val) with
    | .error e => (s, some e)
    | .ok b => State.loadRegs (s.setReg r b) base rs

/-! The call stack (R145, R146). -/

/-- `Push(v)`: `none` where STACK_CAPACITY is a bound C and the stack already holds C entries. -/
def State.push (s : State) (v : Word) : Option State :=
  if s.cfg.stackCapacity = some s.stack.length then none else some { s with stack := v :: s.stack }

/-- `Pop()`: the top entry and the state without it; `none` where the stack is empty. -/
def State.pop (s : State) : Option (Word × State) :=
  match s.stack with
  | [] => none
  | v :: rest => some (v, { s with stack := rest })

/-! Timers, display, keys and events (R26 to R30, R40). -/

/-- `DT_TICKS <- t`. -/
def State.setDelay (s : State) (t : Nat) : State := { s with dtTicks := t }

/-- `ST_TICKS <- t; ST_ACTIVE <- a`. -/
def State.setSound (s : State) (t : Nat) (a : Bool) : State := { s with stTicks := t, stActive := a }

/-- `FB <- fb; DIRTY <- true`. -/
def State.redraw (s : State) (fb : FrameBuffer) : State := { s with fb := fb, dirty := true }

/-- `emit E`. -/
def State.emit (s : State) (e : Event) : State := { s with events := s.events ++ [e] }

/-- A draw of the `rand` input: the free byte, and the state in which it has been drawn (R192). -/
def State.drawRandom (s : State) : Byte × State := (Config.randByte s.draws, { s with draws := s.draws + 1 })

/-! Taking a fatal condition (R301 to R303), and the one way out of it (R304, R340). -/

/-- Entry into the fatal state: STATUS <- Halted(record), with the PC not advanced. Nothing else is saved, and control
goes nowhere (R303). -/
def State.halt (s : State) (kind : FatalKind) (opcode : Option Word) (addr : Option Nat) (key : Option Byte) : State :=
  { s with status := .halted { kind := kind, pc := s.pc, opcode := opcode, addr := addr, key := key } }

/-- `raise Fatal(kind, info)` of the instruction whose word is w: a next state, halted. -/
def raise (s : State) (w : Word) (kind : FatalKind) (addr : Option Nat := none) (key : Option Byte := none) : Result :=
  .next (s.halt kind (some w) addr key)

/-- The end of an instruction that accesses memory byte by byte: the plain advance, or MEM_OUT_OF_BOUNDS with what was
done before the raise kept (R70, R303). -/
def finishAccess (w : Word) : State × Option Nat → Result
  | (s, none) => .next s.advance
  | (s, some a) => raise s w .memOutOfBounds (addr := some a)

/-- The memory after reset: FONT and zeros, with byte j of the ROM at base + j (R340, R341). -/
def Memory.placeRom (c : Config) (base : Nat) : List Byte → Memory → Memory
  | [], m => m
  | b :: bs, m => Memory.placeRom c (base + 1) bs (Memory.write c m base b)

/-- `reset` with a ROM image (R340): `none` where the ROM is refused (R342). Every element of the core takes its reset
value; the parameters and the model's own fields, which are no elements of the core, stay (notes/assumptions/10.md). -/
def State.boot (s : State) (rom : List Byte) : Option State :=
  if rom.length = 0 ∨ maxRom < rom.length then none
  else some { State.reset with
    mem := Memory.placeRom s.cfg romBase rom []
    cfg := s.cfg
    draws := s.draws
    events := s.events
    inputs := s.inputs }

/-! The core's output ports `halted` and `fault` (R40, R124). -/

/-- The `halted` port: STATUS is Halted. -/
def State.haltedPort (s : State) : Bool :=
  match s.status with
  | .running => false
  | .halted _ => true

/-- The `fault` port: the fault record, valid when halted. -/
def State.faultPort (s : State) : Option FatalRecord :=
  match s.status with
  | .running => none
  | .halted f => some f

end Sys2Proof.Machine
end

