-- ==== Sys2Proof/Machine/Flags.lean ====
section
/-!
DEFINITION. The (result, flag) pairs of the ALU and the order in which they are written (spec/43_alu.md R180, R187 to
R191, R193), and the flag of a draw (spec/45_display.md R231).
-/

namespace Sys2Proof.Machine

/-- A flag as VF holds it: 1 or 0. -/
def flagByte (b : Bool) : Byte := if b then 1 else 0

/-- 8XY4: the sum modulo 256, and the carry out (R187). -/
def addPair (a b : Byte) : Byte × Bool :=
  let s := a.toNat + b.toNat
  (BitVec.ofNat 8 s, decide (255 < s))

/-- 8XY5, and 8XY7 with its operands exchanged: the difference modulo 256, and "no borrow" (R180, R188, R190). -/
def subPair (a b : Byte) : Byte × Bool := (a - b, decide (b.toNat ≤ a.toNat))

/-- 8XY6: the logical shift right by 1, and the bit shifted out, bit 0 (R189). -/
def shrPair (a : Byte) : Byte × Bool := (a >>> 1, a.getLsbD 0)

/-- 8XYE: the logical shift left by 1, and the bit shifted out, bit 7 (R191). -/
def shlPair (a : Byte) : Byte × Bool := (a <<< 1, a.getLsbD 7)

/-- `V[X] <- r; V[F] <- f`: the flag is written last (R193). -/
def State.setResultFlag (s : State) (x : Reg) (p : Byte × Bool) : State :=
  (s.setReg x p.1).setReg flagReg (flagByte p.2)

end Sys2Proof.Machine
end

