-- ==== Sys2Proof/Machine/Alu.lean ====
section
/-!
DEFINITION. Register loads and the ALU: spec/43_alu.md R180 to R194.
-/

namespace Sys2Proof.Machine

/-- A register written, and the plain advance. -/
def writeReg (x : Reg) (v : Byte) (s : State) : Result := .next (s.setReg x v).advance

/-- A (result, flag) pair written, the flag last, and the plain advance (R193). -/
def writePair (x : Reg) (p : Byte × Bool) (s : State) : Result := .next (s.setResultFlag x p).advance

/-- 6XNN LD Vx, byte (R181). -/
def execLdVxNn (x : Reg) (nn : Byte) (s : State) : Result := writeReg x nn s

/-- 7XNN ADD Vx, byte: modulo 256, the carry discarded (R182). -/
def execAddVxNn (x : Reg) (nn : Byte) (s : State) : Result := writeReg x (s.reg x + nn) s

/-- 8XY0 LD Vx, Vy (R183). -/
def execLdVxVy (x y : Reg) (s : State) : Result := writeReg x (s.reg y) s

/-- 8XY1 OR: VF unchanged unless it is Vx (R184). -/
def execOr (x y : Reg) (s : State) : Result := writeReg x (s.reg x ||| s.reg y) s

/-- 8XY2 AND: VF unchanged unless it is Vx (R185). -/
def execAnd (x y : Reg) (s : State) : Result := writeReg x (s.reg x &&& s.reg y) s

/-- 8XY3 XOR: VF unchanged unless it is Vx (R186). -/
def execXor (x y : Reg) (s : State) : Result := writeReg x (s.reg x ^^^ s.reg y) s

/-- 8XY4 ADD Vx, Vy with carry out (R187). -/
def execAddVxVy (x y : Reg) (s : State) : Result := writePair x (addPair (s.reg x) (s.reg y)) s

/-- 8XY5 SUB: Vx − Vy with "no borrow" (R188). -/
def execSub (x y : Reg) (s : State) : Result := writePair x (subPair (s.reg x) (s.reg y)) s

/-- 8XY6 SHR: Vx shifted in place, Y ignored (R189). -/
def execShr (x _y : Reg) (s : State) : Result := writePair x (shrPair (s.reg x)) s

/-- 8XY7 SUBN: Vy − Vx with "no borrow" (R190). -/
def execSubn (x y : Reg) (s : State) : Result := writePair x (subPair (s.reg y) (s.reg x)) s

/-- 8XYE SHL: Vx shifted in place, Y ignored (R191). -/
def execShl (x _y : Reg) (s : State) : Result := writePair x (shlPair (s.reg x)) s

/-- CXNN RND: a fresh random byte AND NN (R192). -/
def execRnd (x : Reg) (nn : Byte) (s : State) : Result :=
  writeReg x (s.drawRandom.1 &&& nn) s.drawRandom.2

end Sys2Proof.Machine
end

