-- ==== Sys2Proof/Machine/Operands.lean ====
section
/-!
DEFINITION. The operand forms: immediates, the address of a memory operand, register ranges, the key operand
(spec/30_encoding.md R91, R92; spec/20_memory.md R64, R69; spec/42_skips.md R166; spec/46_timers_input.md R251).
-/

namespace Sys2Proof.Machine

/-- `zext_16(NNN)` (R91). -/
def zextAddr (nnn : Addr12) : Word := nnn.zeroExtend 16

/-- The one addressing mode, `I + k`, an exact sum (R64). -/
def State.effAddr (s : State) (k : Nat) : Nat := s.i.toNat + k

/-- The registers V0..VX, in increasing order: X is the last (R92). -/
def regRange (x : Reg) : List Reg := (List.finRange 16).take (x.val + 1)

/-- The decimal digits of a byte: hundreds, tens, ones (R213). -/
def bcdDigits (v : Byte) : List Byte :=
  [BitVec.ofNat 8 (v.toNat / 100), BitVec.ofNat 8 (v.toNat / 10 % 10), BitVec.ofNat 8 (v.toNat % 10)]

/-- `KEYS[k]` (R30). -/
def State.keyDown (s : State) (k : Fin 16) : Bool := s.keys.getLsbD k.val

/-- The key a register names: `none` where its value is 16 or more (R166). -/
def keyIndex (v : Byte) : Option (Fin 16) := if h : v.toNat < 16 then some ⟨v.toNat, h⟩ else none

/-- `min { k | KEYS[k] }`, or `none` where no key is down (R251). -/
def State.firstKey (s : State) : Option (Fin 16) := (List.finRange 16).find? fun k => s.keyDown k

/-- The address of glyph number v: `v * 5`, not masked (R212). -/
def glyphAddr (v : Byte) : Word := BitVec.ofNat 16 (v.toNat * 5)

/-- DT, the visible delay count: `DT_TICKS / K`, floor (R26, R250). -/
def State.delayCount (s : State) : Nat := s.dtTicks / s.cfg.k

/-- ST, the visible sound count: `ST_TICKS / K`, floor (R27). -/
def State.soundCount (s : State) : Nat := s.stTicks / s.cfg.k

/-- A duration of d frames in ticks: `d * K` (R310). -/
def State.frameTicks (s : State) (d : Byte) : Nat := d.toNat * s.cfg.k

end Sys2Proof.Machine
end

