-- ==== Sys2Proof/Machine/Control.lean ====
section
/-!
DEFINITION. Jumps, calls and the return: spec/41_control_transfer.md R140 to R147.
-/

namespace Sys2Proof.Machine

/-- A subroutine call by the word w: `Push(PC + 2); PC <- zext_16(NNN)` (R141, R143, R145). -/
def callTo (w : Word) (nnn : Addr12) (s : State) : Result :=
  match s.push (s.pc + 2) with
  | none => raise s w .stackOverflow
  | some s' => .next (s'.setPc (zextAddr nnn))

/-- 00EE RET (R140). -/
def execRet (s : State) : Result :=
  match s.pop with
  | none => raise s (encode .ret) .stackUnderflow
  | some (v, s') => .next (s'.setPc v)

/-- 0NNN SYS: a subroutine call (R141). -/
def execSys (nnn : Addr12) (s : State) : Result := callTo (encode (.sys nnn)) nnn s

/-- 1NNN JP (R142). -/
def execJp (nnn : Addr12) (s : State) : Result := .next (s.setPc (zextAddr nnn))

/-- 2NNN CALL (R143). -/
def execCall (nnn : Addr12) (s : State) : Result := callTo (encode (.call nnn)) nnn s

/-- BNNN JP V0: `PC <- V[0] + NNN` (R144). -/
def execJpV0 (nnn : Addr12) (s : State) : Result :=
  .next (s.setPc (BitVec.ofNat 16 ((s.reg 0).toNat + nnn.toNat)))

end Sys2Proof.Machine
end

