-- ==== Sys2Proof/Machine/Display.lean ====
section
/-!
DEFINITION. The framebuffer, the XOR sprite engine and the refresh: spec/45_display.md R230 to R237.
-/

namespace Sys2Proof.Machine

/-- `FB[x][y]`; no pixel is lit outside the 64 × 32 grid (R28). -/
def pixel (fb : FrameBuffer) (x y : Nat) : Bool := if h : y < 32 then fb[y].getLsbD x else false

/-- `FB[x][y] <- FB[x][y] ^ 1`, for x < 64 and y < 32. -/
def togglePixel (fb : FrameBuffer) (x y : Nat) : FrameBuffer :=
  if h : y < 32 then fb.set y (fb[y] ^^^ BitVec.twoPow 64 x) else fb

/-- Every pixel 0 (R230). -/
def blankScreen : FrameBuffer := Vector.replicate 32 0

/-- One sprite bit b at the target (px, py), on the framebuffer and the collision result so far: a 0 bit and a target off
the screen change nothing (R232 to R234). -/
def plot (px py : Nat) (b : Bool) (acc : FrameBuffer × Bool) : FrameBuffer × Bool :=
  if px < 64 ∧ py < 32 ∧ b = true then (togglePixel acc.1 px py, acc.2 || pixel acc.1 px py) else acc

/-- One sprite byte at row py: columns u = 0..7, u = 0 the most significant bit (R232, R235). -/
def drawRow (x py : Nat) (b : Byte) (acc : FrameBuffer × Bool) : FrameBuffer × Bool :=
  (List.range 8).foldl (fun acc u => plot (x + u) py (b.getLsbD (7 - u)) acc) acc

/-- The rows of a sprite, the first at row y (R232). -/
def drawRows (x y : Nat) : List Byte → FrameBuffer × Bool → FrameBuffer × Bool
  | [], acc => acc
  | b :: bs, acc => drawRows x (y + 1) bs (drawRow x y b acc)

/-- `Draw(x, y, bytes)`: the framebuffer after it and the collision result (R232, R233). -/
def draw (x y : Nat) (bytes : List Byte) (fb : FrameBuffer) : FrameBuffer × Bool := drawRows x y bytes (fb, false)

/-- 00E0 CLS (R230). -/
def execCls (s : State) : Result := .next (s.redraw blankScreen).advance

/-- DXYN DRW: every sprite byte is read before any pixel changes; VF is the collision result (R231). -/
def execDrw (x y : Reg) (n : Fin 16) (s : State) : Result :=
  match s.readBytes (s.effAddr 0) n.val with
  | .error a => raise s (encode (.drw x y n)) .memOutOfBounds (addr := some a)
  | .ok bytes =>
    let d := draw (s.reg x).toNat (s.reg y).toNat bytes s.fb
    .next ((s.redraw d.1).setReg flagReg (flagByte d.2)).advance

/-- The `frame` strobe: present if DIRTY, then clear it; a halted core presents nothing (R236). -/
def State.onFrame (s : State) : State :=
  if s.status = .running ∧ s.dirty = true then { s.emit (.present s.fb) with dirty := false } else s

end Sys2Proof.Machine
end

