-- ==== Sys2Proof/Machine/Index.lean ====
section
/-!
DEFINITION. The address register and the loads and stores through it: spec/44_memory_index.md R210 to R215.
-/

namespace Sys2Proof.Machine

/-- ANNN LD I, addr (R210). -/
def execLdI (nnn : Addr12) (s : State) : Result := .next (s.setI (zextAddr nnn)).advance

/-- FX1E ADD I, Vx: past 0xFFFF, wrap or the fault, as I_OVERFLOW says (R211). -/
def execAddIVx (x : Reg) (s : State) : Result :=
  let sum := s.i.toNat + (s.reg x).toNat
  if 0xFFFF < sum ∧ s.cfg.iOverflow = .fatal then raise s (encode (.addIVx x)) .iOverflowFault
  else .next (s.setI (BitVec.ofNat 16 sum)).advance

/-- FX29 LD F, Vx (R212). -/
def execLdFVx (x : Reg) (s : State) : Result := .next (s.setI (glyphAddr (s.reg x))).advance

/-- FX33 LD B, Vx: three decimal digits at I, I+1, I+2 (R213). -/
def execLdBVx (x : Reg) (s : State) : Result :=
  finishAccess (encode (.ldBVx x)) (s.storeBytes (s.effAddr 0) (bcdDigits (s.reg x)))

/-- FX55 LD [I], Vx: V0..VX at I..I+X, I unchanged (R214). -/
def execLdMemVx (x : Reg) (s : State) : Result :=
  finishAccess (encode (.ldMemVx x)) (s.storeBytes (s.effAddr 0) ((regRange x).map s.reg))

/-- FX65 LD Vx, [I]: V0..VX from I..I+X, I unchanged (R215). -/
def execLdVxMem (x : Reg) (s : State) : Result :=
  finishAccess (encode (.ldVxMem x)) (s.loadRegs (s.effAddr 0) (regRange x))

end Sys2Proof.Machine
end

