-- ==== Sys2Proof/Machine/Skips.lean ====
section
/-!
DEFINITION. The conditional skips: spec/42_skips.md R160 to R166.
-/

namespace Sys2Proof.Machine

/-- 3XNN SE Vx, byte (R160). -/
def execSeVxNn (x : Reg) (nn : Byte) (s : State) : Result := .next (s.skipIf (s.reg x == nn))

/-- 4XNN SNE Vx, byte (R161). -/
def execSneVxNn (x : Reg) (nn : Byte) (s : State) : Result := .next (s.skipIf (s.reg x != nn))

/-- 5XY0 SE Vx, Vy (R162). -/
def execSeVxVy (x y : Reg) (s : State) : Result := .next (s.skipIf (s.reg x == s.reg y))

/-- 9XY0 SNE Vx, Vy (R163). -/
def execSneVxVy (x y : Reg) (s : State) : Result := .next (s.skipIf (s.reg x != s.reg y))

/-- A skip by the word w on the key V[X] names: skip if its level is `level`; KEY_INDEX_OUT_OF_RANGE if V[X] is 16 or more
(R164 to R166). -/
def skipOnKey (w : Word) (x : Reg) (level : Bool) (s : State) : Result :=
  match keyIndex (s.reg x) with
  | none => raise s w .keyIndexOutOfRange (key := some (s.reg x))
  | some k => .next (s.skipIf (s.keyDown k == level))

/-- EX9E SKP (R164). -/
def execSkp (x : Reg) (s : State) : Result := skipOnKey (encode (.skp x)) x true s

/-- EXA1 SKNP (R165). -/
def execSknp (x : Reg) (s : State) : Result := skipOnKey (encode (.sknp x)) x false s

end Sys2Proof.Machine
end

