-- ==== Sys2Proof/Machine/Timers.lean ====
section
/-!
DEFINITION. The timer, sound and key instructions and the per-cycle update: spec/46_timers_input.md R250 to R253,
spec/60_exceptions.md R308 to R310.
-/

namespace Sys2Proof.Machine

/-- FX07 LD Vx, DT (R250). -/
def execLdVxDt (x : Reg) (s : State) : Result := .next (s.setReg x (BitVec.ofNat 8 s.delayCount)).advance

/-- FX0A LD Vx, K: the lowest key that is down, or no change and the same word again next cycle (R251). -/
def execLdVxK (x : Reg) (s : State) : Result :=
  match s.firstKey with
  | some k => .next (s.setReg x (BitVec.ofNat 8 k.val)).advance
  | none => .next s

/-- FX15 LD DT, Vx (R252). -/
def execLdDtVx (x : Reg) (s : State) : Result := .next (s.setDelay (s.frameTicks (s.reg x))).advance

/-- FX18 LD ST, Vx: load the count, mark playback active, emit audio_start (R253). -/
def execLdStVx (x : Reg) (s : State) : Result :=
  .next ((s.setSound (s.frameTicks (s.reg x)) true).emit (.audioStart (s.reg x))).advance

/-- The delay timer's half of TimerUpdate (R308). -/
def State.delayUpdate (s : State) : State := if 0 < s.dtTicks then s.setDelay (s.dtTicks - 1) else s

/-- The sound trigger's half of TimerUpdate (R309): the count falls, and one audio_stop is emitted when the visible count
is 0 while playback is active. -/
def State.soundUpdate (s : State) : State :=
  let s := if 0 < s.stTicks then s.setSound (s.stTicks - 1) s.stActive else s
  if s.stActive = true ∧ s.soundCount = 0 then (s.emit .audioStop).setSound s.stTicks false else s

/-- `TimerUpdate()` (R120, R308, R309). -/
def State.timerUpdate (s : State) : State := s.delayUpdate.soundUpdate

end Sys2Proof.Machine
end

