-- ==== Sys2Proof/Machine/Cycle.lean ====
section
/-!
DEFINITION. The cycle every instruction shares (spec/40_cycle.md R120, R124) and the host events that land between two
cycles (R125; spec/45_display.md R236; spec/70_reset_and_hazards.md R340, R342).
-/

namespace Sys2Proof.Machine

/-- The end of a cycle after `execute`: TimerUpdate, unless the instruction raised (R120). -/
def afterExec (s : State) : State :=
  match s.status with
  | .running => s.timerUpdate
  | .halted _ => s

/-- One `clk` strobe (R120): a halted core changes nothing (R124); the fetch and decode faults come before the
instruction's own (R305). -/
def cycle (s : State) : Result :=
  match s.status with
  | .halted _ => .next s
  | .running =>
    match s.fetch with
    | .error a => .next (s.halt .memOutOfBounds none (some a) none)
    | .ok w =>
      match decode w with
      | none => raise s w .invalidInstruction
      | some i =>
        match exec i s with
        | .next s' => .next (afterExec s')
        | .fault r => .fault r
        | .refused r => .refused r

/-- One host event (R125, R315): a new key state, a frame strobe, or reset with a ROM, which may be refused (R342). -/
def hostEvent (s : State) : HostEvent → Except Refusal State
  | .keys k => .ok { s with keys := k }
  | .frame => .ok s.onFrame
  | .reset rom =>
    match s.boot rom with
    | some s' => .ok s'
    | none => .error .romLoadFailure

/-- Host events in their order. -/
def hostEvents (s : State) : List HostEvent → Except Refusal State
  | [] => .ok s
  | e :: es =>
    match hostEvent s e with
    | .ok s' => hostEvents s' es
    | .error r => .error r

/-- The host events scheduled before the next cycle, taken from `inputs` and landed. -/
def landInputs (s : State) : Except Refusal State :=
  match s.inputs with
  | [] => .ok s
  | es :: rest => hostEvents { s with inputs := rest } es

/-- The host events due now, then one cycle. -/
def stepCycle (s : State) : Result :=
  match landInputs s with
  | .ok s' => cycle s'
  | .error r => .refused r

/-- The bytes of the word w at address a, high byte first (R63). -/
def State.placeWord (s : State) (a : Nat) (w : Word) : State := (s.setByte a (highByte w)).setByte (a + 1) (lowByte w)

end Sys2Proof.Machine
end

