-- ==== Sys2Proof/Machine/Step.lean ====
section
/-!
DEFINITION. The step of the machine: the host events that land between two cycles (spec/40_cycle.md R125), then one cycle
(R120); and the placing of one instruction where the next step fetches it.
-/

namespace Sys2Proof.Machine

/-- One step. -/
def step (s : State) : Host.Outcome State Fault Refusal := stepCycle s

/-- s with one instruction's word stored where the next step fetches (notes/assumptions/8.md, 16.md): at PC, or at the
reset PC where PC is past the last word of memory; the core is running, and no host event is due, so that the very next
step runs that word. -/
def State.withFetchWord (s : State) (nbits w : Nat) : State :=
  let at_ : Nat := if s.pc.toNat + 1 < memSize then s.pc.toNat else romBase
  { s.placeWord at_ (BitVec.ofNat 16 (w % 2 ^ nbits)) with
    pc := BitVec.ofNat 16 at_
    status := .running
    inputs := [] }

end Sys2Proof.Machine
end

