-- ==== Sys2Proof/Safety.lean ====
section
/-!
DEFINITION. The terms claims use: which registers an instruction names, when it raises, what a sprite covers, frames, and the
invariants of the machine.
-/

namespace Sys2Proof.Machine

/-! Which instruction writes what (spec/10_state.md R20 to R30). -/

/-- The general registers an instruction writes: its named destination, and VF for the instructions that write it as a
side effect (R21, R22). -/
def writesReg (i : Instr) (r : Reg) : Prop :=
  match i with
  | .ldVxNn x _ | .addVxNn x _ | .ldVxVy x _ | .or x _ | .and x _ | .xor x _ | .rnd x _ | .ldVxDt x | .ldVxK x => r = x
  | .addVxVy x _ | .sub x _ | .shr x _ | .subn x _ | .shl x _ => r = x ∨ r = flagReg
  | .drw _ _ _ => r = flagReg
  | .ldVxMem x => r ≤ x
  | .cls | .ret | .sys _ | .jp _ | .call _ | .seVxNn _ _ | .sneVxNn _ _ | .seVxVy _ _ | .sneVxVy _ _ | .ldI _ | .jpV0 _
  | .skp _ | .sknp _ | .ldDtVx _ | .ldStVx _ | .addIVx _ | .ldFVx _ | .ldBVx _ | .ldMemVx _ => False

/-- FX33 and FX55 write memory (R60). -/
def writesMemory (i : Instr) : Prop := (∃ x, i = .ldBVx x) ∨ ∃ x, i = .ldMemVx x

/-- ANNN, FX1E and FX29 write I (R23). -/
def writesIndex (i : Instr) : Prop := (∃ n, i = .ldI n) ∨ (∃ x, i = .addIVx x) ∨ ∃ x, i = .ldFVx x

/-- 0NNN, 2NNN and 00EE write STACK (R25). -/
def writesStack (i : Instr) : Prop := i = .ret ∨ (∃ n, i = .sys n) ∨ ∃ n, i = .call n

/-- 00E0 and DXYN write FB and DIRTY (R28, R29). -/
def writesDisplay (i : Instr) : Prop := i = .cls ∨ ∃ x y n, i = .drw x y n

/-- When an instruction raises Fatal(kind, ..) in a state: the conditions of the instruction rules, gathered in R301. -/
def raisesKind (s : State) (kind : FatalKind) : Instr → Prop
  | .ret => kind = .stackUnderflow ∧ s.stack = []
  | .sys _ | .call _ => kind = .stackOverflow ∧ s.cfg.stackCapacity = some s.stack.length
  | .skp x | .sknp x => kind = .keyIndexOutOfRange ∧ 16 ≤ (s.reg x).toNat
  | .addIVx x => kind = .iOverflowFault ∧ s.cfg.iOverflow = .fatal ∧ 0xFFFF < s.i.toNat + (s.reg x).toNat
  | .drw _ _ n => kind = .memOutOfBounds ∧ 0 < n.val ∧ 4096 < s.i.toNat + n.val
  | .ldBVx _ => kind = .memOutOfBounds ∧ 4096 < s.i.toNat + 3
  | .ldMemVx x | .ldVxMem x => kind = .memOutOfBounds ∧ 4096 < s.i.toNat + (x.val + 1)
  | .cls | .jp _ | .seVxNn _ _ | .sneVxNn _ _ | .seVxVy _ _ | .ldVxNn _ _ | .addVxNn _ _ | .ldVxVy _ _ | .or _ _
  | .and _ _ | .xor _ _ | .addVxVy _ _ | .sub _ _ | .shr _ _ | .subn _ _ | .shl _ _ | .sneVxVy _ _ | .ldI _ | .jpV0 _
  | .rnd _ _ | .ldVxDt _ | .ldVxK _ | .ldDtVx _ | .ldStVx _ | .ldFVx _ => False

/-- A fault record, written out (R302). -/
def fatalRecord (kind : FatalKind) (pc : Word) (opcode : Option Word) (addr : Option Nat) (key : Option Byte) :
    FatalRecord := { kind := kind, pc := pc, opcode := opcode, addr := addr, key := key }

/-- How many words of a family decode to nothing (R94). -/
def invalidInFamily (op : Nat) : Nat :=
  (List.range 4096).countP fun n => (decode (BitVec.ofNat 16 (op * 4096 + n))).isNone

/-! Frames. -/

/-- Every byte of memory reads as before. -/
def sameBytes (s t : State) : Prop := ∀ a, t.byteAt a = s.byteAt a

/-- Nothing changed but general registers and PC; every byte of memory reads as before. -/
def onlyRegsPc (s t : State) : Prop := t = { s with regs := t.regs, pc := t.pc } ∧ sameBytes s t

/-- Nothing changed but PC; every register and every byte of memory reads as before. -/
def onlyPc (s t : State) : Prop := t = { s with pc := t.pc } ∧ (∀ r, t.reg r = s.reg r) ∧ sameBytes s t

/-- One general register written, the plain advance, and nothing else changed. -/
def wroteReg (s t : State) (x : Reg) (v : Byte) : Prop :=
  t.reg x = v ∧ (∀ r, r ≠ x → t.reg r = s.reg r) ∧ t.pc = s.pc + 2 ∧ onlyRegsPc s t

/-- A result and a flag written, the flag last (R193), the plain advance, and nothing else changed. -/
def wroteResultFlag (s t : State) (x : Reg) (v : Byte) (f : Bool) : Prop :=
  (x ≠ flagReg → t.reg x = v) ∧ t.reg flagReg = (if f then 1 else 0) ∧
    (∀ r, r ≠ x → r ≠ flagReg → t.reg r = s.reg r) ∧ t.pc = s.pc + 2 ∧ onlyRegsPc s t

/-- A PC of 4095 or more is fatal at the next fetch, and not before (R63, R140, R142, R144). -/
def faultsAtNextFetch (t : State) : Prop := 4095 ≤ t.pc.toNat → t.fetch = .error (max t.pc.toNat 4096)

/-! Sprites (spec/45_display.md R232 to R235). -/

/-- The sprite with its first row at (x, y) has a 1 bit whose target is (i, j). -/
def spriteBit (x y : Nat) (bytes : List Byte) (i j : Nat) : Bool :=
  decide (x ≤ i ∧ i < x + 8 ∧ y ≤ j) &&
    match bytes[j - y]? with
    | some b => b.getLsbD (7 - (i - x))
    | none => false

/-- The n bytes at a, a+1, .. (R69). -/
def bytesFrom (s : State) (a n : Nat) : List Byte := (List.range n).map fun k => s.byteAt (a + k)

/-! Invariants. -/

/-- PC never exceeds what an instruction can produce, and no stack entry exceeds 4096 (R24, R122, R145). -/
def controlBounds (s : State) : Prop := s.pc.toNat ≤ 0x10FE ∧ ∀ v ∈ s.stack, v.toNat ≤ 4096

/-- The depth of STACK is at most a configured STACK_CAPACITY (R7, R33). -/
def depthBound (s : State) : Prop := ∀ c, s.cfg.stackCapacity = some c → s.stack.length ≤ c

/-- DT_TICKS and ST_TICKS are at most 255·K, and playback is active exactly while the visible sound count is not 0
(R26, R309, R316). -/
def timerBounds (s : State) : Prop :=
  s.dtTicks ≤ 255 * s.cfg.k ∧ s.stTicks ≤ 255 * s.cfg.k ∧ (s.stActive = true ↔ 0 < s.soundCount)

/-- The fault record of a halted core has the form of R302; its opcode is absent only for a fetch that reaches past the
memory (R63). -/
def recordFits (f : FatalRecord) (pc : Word) : Prop :=
  f.pc = pc ∧ (f.addr.isSome ↔ f.kind = .memOutOfBounds) ∧ (f.key.isSome ↔ f.kind = .keyIndexOutOfRange) ∧
    (∀ a, f.addr = some a → 4096 ≤ a) ∧ (∀ k, f.key = some k → 16 ≤ k.toNat) ∧
    (f.opcode = none → 4095 ≤ pc.toNat ∧ f.addr = some (max pc.toNat 4096))

/-- STATUS, if Halted, holds a record that fits PC (R302, R303). -/
def haltedRecordFits (s : State) : Prop := ∀ f, s.status = .halted f → recordFits f s.pc

/-- What the last audio event of a log said: `some true` a start, `some false` a stop, `none` where there is none. -/
def lastAudio (es : List Event) : Option Bool :=
  es.foldl (fun acc e => match e with | .audioStart _ => some true | .audioStop => some false | .present _ => acc) none

/-- Every audio_stop of a log follows an audio_start with no audio_stop between (R309). -/
def stopsFollowStarts (es : List Event) : Prop :=
  ∀ before after, es = before ++ .audioStop :: after → lastAudio before = some true

/-- The log's stops each follow a start of their own, and playback is active only after a start not yet stopped. -/
def audioOrder (s : State) : Prop :=
  stopsFollowStarts s.events ∧ (s.stActive = true → lastAudio s.events = some true)

/-- Memory is in canonical form. -/
def memoryCanonical (s : State) : Prop := Memory.wf s.cfg s.mem

/-- Every invariant of the machine together, with a legal configuration. -/
structure Inv (s : State) : Prop where
  config : s.cfg.wf = true
  memory : memoryCanonical s
  control : controlBounds s
  depth : depthBound s
  timers : timerBounds s
  record : haltedRecordFits s
  audio : audioOrder s

end Sys2Proof.Machine
end

