-- ==== Sys2Proof/Certificates/Slice0/Obligations.lean ====
section
/-!
DEFINITION. The obligations: the machine's rules as statements for the provers. `basis: stated` formalises a numbered rule
of spec/ that carries no decision of the spec's own; `basis: derived` rests on the sections or decisions it names.
-/

open Sys2Proof Sys2Proof.Machine

/-- Derived from 30_encoding.md sections 1 to 3, opcode_table.json, 92_eei_decisions.md D11. For every well-formed
instruction of all 35 rows, with every operand at every value its field admits, decode (encode i) is i. The reading of
the literal patterns is the spec's own decision D11. -/
def Obligations.DecodeOfEncodeIsTheInstruction : Prop :=
  ∀ i : Instr, i.wf = true → decode (encode i) = some i

/-- Derived from 30_encoding.md sections 1 to 3, 92_eei_decisions.md D11. For every 16-bit word w and instruction i, if
decode w is i then i is well formed and encode i is w; so two words never decode to one instruction. The reading of
the literal patterns is the spec's own decision D11. -/
def Obligations.EncodeOfDecodeIsTheWord : Prop :=
  ∀ (w : Word) (i : Instr), decode w = some i → i.wf = true ∧ encode i = w

/-- Derived from 30_encoding.md section 2, 60_exceptions.md section 1, 92_eei_decisions.md D11, D25. decode w is INVALID
exactly for 5XYn and 9XYn with n not 0, 8XYn with n in 8..D or F, EXnn with nn not 9E or A1, FXnn with nn not one of
the nine listed; the counts per family are those of the table, 17488 in all, and the remaining 48048 words decode; and
a running core that fetches such a word, with no host event due, halts with INVALID_INSTRUCTION and opcode w, every
other part of the state unchanged. That the patterns are read literally, so that the words of families 8, 9, E and F
are invalid, is the spec's own decision D11, the form of the record D25; the count of 48048 is one the spec derives. -/
def Obligations.InvalidWordsAreThoseOfTheTable : Prop :=
  (∀ w : Word, decode w = none ↔
    (w.toNat / 4096 = 0x5 ∧ w.toNat % 16 ≠ 0) ∨
    (w.toNat / 4096 = 0x8 ∧ w.toNat % 16 ∈ [0x8, 0x9, 0xA, 0xB, 0xC, 0xD, 0xF]) ∨
    (w.toNat / 4096 = 0x9 ∧ w.toNat % 16 ≠ 0) ∨
    (w.toNat / 4096 = 0xE ∧ w.toNat % 256 ∉ [0x9E, 0xA1]) ∨
    (w.toNat / 4096 = 0xF ∧ w.toNat % 256 ∉ [0x07, 0x0A, 0x15, 0x18, 0x1E, 0x29, 0x33, 0x55, 0x65])) ∧
  (List.range 16).map invalidInFamily = [0, 0, 0, 0, 0, 3840, 0, 0, 1792, 3840, 0, 0, 0, 0, 4064, 3952] ∧
  ((List.range 16).map invalidInFamily).sum = 17488 ∧
  ((List.range 16).map fun op => 4096 - invalidInFamily op).sum = 48048 ∧
  ∀ (s : State) (w : Word), s.inputs = [] → s.status = .running → s.fetch = .ok w → decode w = none →
    step s = .next { s with status := .halted (fatalRecord .invalidInstruction s.pc (some w) none none) }

/-- Derived from 30_encoding.md sections 1 to 3, 95_test_vectors.md T-DEC-1, T-DEC-3. At least one word of each family 0
to F, written out from the spec's patterns, decodes to the instruction it stands for; the bytes 12 34 decode as the
word 1234 with nothing left; a single byte is rejected as truncated and 50 01 as invalid. -/
def Obligations.SampleWordsDecode : Prop :=
  decode 0x00E0 = some .cls ∧ decode 0x00EE = some .ret ∧ decode 0x00E1 = some (.sys 0x0E1) ∧
  decode 0x1204 = some (.jp 0x204) ∧ decode 0x2210 = some (.call 0x210) ∧ decode 0x3310 = some (.seVxNn 3 0x10) ∧
  decode 0x4310 = some (.sneVxNn 3 0x10) ∧ decode 0x5120 = some (.seVxVy 1 2) ∧ decode 0x6A42 = some (.ldVxNn 0xA 0x42) ∧
  decode 0x71FF = some (.addVxNn 1 0xFF) ∧ decode 0x8124 = some (.addVxVy 1 2) ∧ decode 0x9120 = some (.sneVxVy 1 2) ∧
  decode 0xB300 = some (.jpV0 0x300) ∧ decode 0xC30F = some (.rnd 3 0x0F) ∧ decode 0xA300 = some (.ldI 0x300) ∧
  decode 0xF233 = some (.ldBVx 2) ∧
  decode 0xD012 = some (.drw 0 1 2) ∧ decode 0xE59E = some (.skp 5) ∧ decode 0xF418 = some (.ldStVx 4) ∧
  decodeBytes [0x12, 0x34] = .ok (.jp 0x234, []) ∧ decodeBytes [0x12] = .error .truncated ∧
  decodeBytes [0x50, 0x01] = .error (.invalidInstruction 0x5001)

/-- Derived from 40_cycle.md (decision D2), 92_eei_decisions.md D2. Where the host events due land in s1, s1 is running,
and the two bytes at its PC decode to i, step s is exec i s1 with the timer update after it when the core still runs,
and as it stands when the instruction raised; a fault or refusal of exec is the step's. The order of update and
instruction is the spec's own decision D2. -/
def Obligations.StepRunsTheDecodedInstruction : Prop :=
  ∀ (s s1 : State) (i : Instr), landInputs s = .ok s1 → s1.status = .running → s1.pc.toNat + 1 < 4096 →
    decodeBytes [s1.byteAt s1.pc.toNat, s1.byteAt (s1.pc.toNat + 1)] = .ok (i, []) →
    (∀ t, exec i s1 = .next t → step s = .next (if t.status = .running then t.timerUpdate else t)) ∧
    (∀ r, exec i s1 = .fault r → step s = .fault r) ∧ ∀ r, exec i s1 = .refused r → step s = .refused r

/-- Derived from 40_cycle.md, 20_memory.md section 3, notes/assumptions/8.md, notes/assumptions/16.md. For every state and
every word that decodes to i, the state with that word placed differs from it only in PC (kept where a whole word fits
there), status (running), due host events (none) and the word's two bytes, and its step is exec i of it, followed by
the timer update when the core still runs. -/
def Obligations.StepRunsThePlacedWord : Prop :=
  ∀ (s : State) (w : Word) (i : Instr), decode w = some i →
    let s1 := s.withFetchWord 16 w.toNat
    (s.pc.toNat + 1 < 4096 → s1.pc = s.pc) ∧
    s1 = { s with pc := s1.pc, mem := s1.mem, status := .running, inputs := [] } ∧
    (∀ a, a ≠ s1.pc.toNat → a ≠ s1.pc.toNat + 1 → s1.byteAt a = s.byteAt a) ∧
    ∀ t, exec i s1 = .next t → step s1 = .next (if t.status = .running then t.timerUpdate else t)

/-- Formalises R63: For PC below 4095, odd or even, the fetched word is 256 times the byte at PC plus the byte at PC+1; at
4095 the fetch fails with index 4096, beyond with index PC; and a running core whose fetch fails, with no host event
due, halts with MEM_OUT_OF_BOUNDS, that index, no opcode, all else unchanged. -/
def Obligations.FetchReadsTwoBytesBigEndian : Prop :=
  ∀ s : State,
    (s.pc.toNat < 4095 → ∃ w, s.fetch = .ok w ∧
      w.toNat = 256 * (s.byteAt s.pc.toNat).toNat + (s.byteAt (s.pc.toNat + 1)).toNat) ∧
    (s.pc.toNat = 4095 → s.fetch = .error 4096) ∧ (4096 ≤ s.pc.toNat → s.fetch = .error s.pc.toNat) ∧
    ∀ a, s.inputs = [] → s.status = .running → s.fetch = .error a →
      step s = .next { s with status := .halted (fatalRecord .memOutOfBounds s.pc none (some a) none) }

/-- Derived from 40_cycle.md (decision D25), 92_eei_decisions.md D25. With STATUS Halted and no host event due, step
answers the same state. The run status is the spec's own decision D25. -/
def Obligations.HaltedCoreChangesNothing : Prop :=
  ∀ (s : State) (f : FatalRecord), s.status = .halted f → s.inputs = [] → step s = .next s

/-- Derived from 60_exceptions.md section 1, 92_eei_decisions.md D25, D28, notes/assumptions/7.md,
notes/assumptions/15.md. From a halted core whose due host events hold no reset, every step answers a state with the
same status that differs only in KEYS and in the events still to land; in particular a frame strobe presents nothing
(decisions D25, D28). The schedule and its consuming are the model's, log 7; that KEYS of a halted core may change is
the model's reading, log 15. -/
def Obligations.OnlyResetLeavesHalted : Prop :=
  ∀ (s : State) (f : FatalRecord), s.status = .halted f →
    (∀ es rest, s.inputs = es :: rest → ∀ rom, HostEvent.reset rom ∉ es) →
    ∃ t, step s = .next t ∧ t = { s with keys := t.keys, inputs := t.inputs } ∧ t.inputs = s.inputs.tail

/-- Derived from 40_cycle.md, 60_exceptions.md section 1, 70_reset_and_hazards.md section 1, 92_eei_decisions.md D23,
notes/assumptions/4.md, notes/assumptions/11.md. Where every reset among the due host events has a ROM of 1 to 3584
bytes, step answers a next state, whatever the memory, PC and registers hold; and step answers a refusal only ROM-
load-failure, where such a reset is due with a ROM outside that range; it never answers a fault. The size limit is the
spec's own decision D23; that a fatal condition is a next state and a refused ROM a refusal of the step is the model's
reading, log 4 and log 11. -/
def Obligations.StepAnswersUnlessARomIsRefused : Prop :=
  ∀ s : State,
    ((∀ es rest, s.inputs = es :: rest → ∀ rom, HostEvent.reset rom ∈ es → 0 < rom.length ∧ rom.length ≤ 3584) →
      ∃ t, step s = .next t) ∧
    (∀ r, step s = .refused r → r = .romLoadFailure ∧
      ∃ es rest rom, s.inputs = es :: rest ∧ HostEvent.reset rom ∈ es ∧ (rom.length = 0 ∨ 3584 < rom.length)) ∧
    ∀ r, step s ≠ .fault r

/-- Derived from 40_cycle.md (decision D28), 45_display.md section 3 (decision D28), notes/assumptions/7.md. A key event
writes all 16 keys and nothing else; a frame strobe of a running core with DIRTY set emits present of the framebuffer
and clears DIRTY, and otherwise does nothing; with no list scheduled nothing lands, and otherwise the first list lands
in its order and leaves the schedule. -/
def Obligations.HostEventsLandBetweenCycles : Prop :=
  ∀ s : State,
    (∀ k, hostEvent s (.keys k) = .ok { s with keys := k }) ∧
    (s.status = .running → s.dirty = true →
      hostEvent s .frame = .ok { s with events := s.events ++ [.present s.fb], dirty := false }) ∧
    (s.status ≠ .running ∨ s.dirty = false → hostEvent s .frame = .ok s) ∧
    (s.inputs = [] → landInputs s = .ok s) ∧
    (∀ rest, s.inputs = [] :: rest → landInputs s = .ok { s with inputs := rest }) ∧
    ∀ e es rest, s.inputs = (e :: es) :: rest → ∀ s1, hostEvent { s with inputs := rest } e = .ok s1 →
      landInputs s = hostEvents s1 es

/-- Formalises R341: For every ROM of 1 to 3584 bytes, reset answers a state in which the byte at 0x200 + j is byte j of
the ROM, for every j below its length. -/
def Obligations.RomBytesLoadVerbatim : Prop :=
  ∀ (s : State) (rom : List Byte), 0 < rom.length → rom.length ≤ 3584 →
    ∃ t, s.boot rom = some t ∧ ∀ j (h : j < rom.length), t.byteAt (0x200 + j) = rom[j]

/-- Derived from 70_reset_and_hazards.md section 1, 10_state.md section 8, 20_memory.md sections 2 and 5,
92_eei_decisions.md D22, D23, notes/assumptions/9.md, notes/assumptions/10.md, notes/assumptions/11.md. A ROM of no
byte or more than 3584 is refused, and a step with that reset due first is refused by name. Any other leaves every
register 0, I 0, PC 0x200, STACK empty, the timers 0, ST_ACTIVE false, every pixel 0, DIRTY false, KEYS 0, Running,
FONT at 0x000..0x04F, 0 at 0x050..0x1FF and past the ROM, memory canonical, and the parameters, the draws, the event
log and the schedule as they were. The fields kept are the model's choice, log 10, the canonical form of memory is log
9, and that a step with a refused reset due answers a refusal is log 11. -/
def Obligations.ResetLaunchOrRefusal : Prop :=
  ∀ (s : State) (rom : List Byte),
    (rom.length = 0 ∨ 3584 < rom.length → s.boot rom = none ∧
      ∀ es rest, s.inputs = (.reset rom :: es) :: rest → step s = .refused .romLoadFailure) ∧
    (0 < rom.length → rom.length ≤ 3584 → ∃ t, s.boot rom = some t ∧
      (∀ r, t.reg r = 0) ∧ t.i = 0 ∧ t.pc = 0x200 ∧ t.stack = [] ∧ t.dtTicks = 0 ∧ t.stTicks = 0 ∧ t.stActive = false ∧
      (∀ x y, pixel t.fb x y = false) ∧ t.dirty = false ∧ t.keys = 0 ∧ t.status = .running ∧
      (∀ a (h : a < 80), t.byteAt a = s.cfg.font[a]) ∧ (∀ a, 80 ≤ a → a < 0x200 → t.byteAt a = 0) ∧
      (∀ a, 0x200 + rom.length ≤ a → t.byteAt a = 0) ∧ memoryCanonical t ∧
      t.cfg = s.cfg ∧ t.draws = s.draws ∧ t.events = s.events ∧ t.inputs = s.inputs)

/-- Derived from 10_state.md section 8, 20_memory.md section 5, 92_eei_decisions.md D22, notes/assumptions/2.md,
notes/assumptions/3.md, notes/assumptions/8.md, notes/assumptions/9.md. In the reset state every register is 0, I is
0, PC is 0x200, STACK is empty, both tick counters are 0, ST_ACTIVE is false, every pixel is 0, DIRTY is false, every
key is up, STATUS is Running, every byte of 0x000..0x04F is the configured FONT's and every other byte is 0, and
memory lists nothing. That no ROM is in it, so that 0x200 and up read 0 and memory lists nothing, is the model's
choice, log 8; what an unlisted byte reads as is log 9. -/
def Obligations.ResetStateValues : Prop :=
  (∀ r, State.reset.reg r = 0) ∧ State.reset.i = 0 ∧ State.reset.pc = 0x200 ∧ State.reset.stack = [] ∧
    State.reset.dtTicks = 0 ∧ State.reset.stTicks = 0 ∧ State.reset.stActive = false ∧
    (∀ x y, pixel State.reset.fb x y = false) ∧ State.reset.dirty = false ∧ (∀ k, State.reset.keyDown k = false) ∧
    State.reset.status = .running ∧ State.reset.mem = [] ∧
    (∀ a (h : a < 80), State.reset.byteAt a = State.reset.cfg.font[a]) ∧ ∀ a, 80 ≤ a → State.reset.byteAt a = 0

/-- Formalises R181, R182, R183: 6XNN leaves NN in Vx, 7XNN the sum modulo 256 with the carry discarded, 8XY0 a copy of
Vy; each completes in every state, for every X and Y, VF included, advances PC by 2, and changes no other register, no
byte of memory and nothing else. -/
def Obligations.LoadAndImmediateResults : Prop :=
  ∀ (s : State) (x y : Reg) (nn : Byte),
    (∃ t, exec (.ldVxNn x nn) s = .next t ∧ wroteReg s t x nn) ∧
    (∃ t, exec (.addVxNn x nn) s = .next t ∧
      wroteReg s t x (BitVec.ofNat 8 (((s.reg x).toNat + nn.toNat) % 256))) ∧
    ∃ t, exec (.ldVxVy x y) s = .next t ∧ wroteReg s t x (s.reg y)

/-- Derived from 43_alu.md section 3, 92_eei_decisions.md D10. Each bit of Vx after OR, AND, XOR is that operation of the
bits of Vx and Vy before; each completes in every state for every X and Y, advances PC by 2, and changes no other
register (VF included, the spec's own decision D10), no byte of memory and nothing else. -/
def Obligations.BitwiseResults : Prop :=
  ∀ (s : State) (x y : Reg),
    (∃ t v, exec (.or x y) s = .next t ∧ wroteReg s t x v ∧
      ∀ k, k < 8 → v.getLsbD k = ((s.reg x).getLsbD k || (s.reg y).getLsbD k)) ∧
    (∃ t v, exec (.and x y) s = .next t ∧ wroteReg s t x v ∧
      ∀ k, k < 8 → v.getLsbD k = ((s.reg x).getLsbD k && (s.reg y).getLsbD k)) ∧
    ∃ t v, exec (.xor x y) s = .next t ∧ wroteReg s t x v ∧
      ∀ k, k < 8 → v.getLsbD k = ((s.reg x).getLsbD k ^^ (s.reg y).getLsbD k)

/-- Formalises R187, R188, R190: ADD leaves the sum modulo 256 and VF = 1 if it exceeds 255, SUB leaves Vx - Vy modulo 256
and VF = 1 if Vx >= Vy, SUBN leaves Vy - Vx modulo 256 and VF = 1 if Vy >= Vx, from the operands before the
instruction; where X = F, VF ends as the flag; each completes in every state, advances PC by 2 and changes nothing
else. -/
def Obligations.AddSubtractResultsAndFlags : Prop :=
  ∀ (s : State) (x y : Reg),
    let a := (s.reg x).toNat
    let b := (s.reg y).toNat
    (∃ t v, exec (.addVxVy x y) s = .next t ∧ v.toNat = (a + b) % 256 ∧ wroteResultFlag s t x v (decide (a + b > 255))) ∧
    (∃ t v, exec (.sub x y) s = .next t ∧ ((v.toNat : Int) = ((a : Int) - b) % 256) ∧
      wroteResultFlag s t x v (decide (a ≥ b))) ∧
    ∃ t v, exec (.subn x y) s = .next t ∧ ((v.toNat : Int) = ((b : Int) - a) % 256) ∧
      wroteResultFlag s t x v (decide (b ≥ a))

/-- Derived from 43_alu.md section 3, 92_eei_decisions.md D8, D9. SHR leaves Vx / 2 and VF = Vx mod 2, SHL leaves 2 Vx
modulo 256 and VF = 1 if Vx >= 128, from Vx before the instruction and whatever Y names; where X = F, VF ends as the
flag; each completes in every state, advances PC by 2 and changes nothing else. That Vx is shifted is the spec's own
decision D9, the order of writes D8. -/
def Obligations.ShiftResultsAndFlags : Prop :=
  ∀ (s : State) (x y : Reg),
    let a := (s.reg x).toNat
    (∃ t v, exec (.shr x y) s = .next t ∧ v.toNat = a / 2 ∧ wroteResultFlag s t x v (decide (a % 2 = 1))) ∧
    ∃ t v, exec (.shl x y) s = .next t ∧ v.toNat = (a * 2) % 256 ∧ wroteResultFlag s t x v (decide (128 ≤ a))

/-- Derived from 43_alu.md section 4, 92_eei_decisions.md D19, notes/assumptions/5.md. CXNN completes in every state: Vx
is the next free byte AND NN, so no bit outside NN is set and NN = 0 gives 0; the draw is counted, so the next one is
another free byte; PC advances by 2 and nothing else changes. Nothing is said of the byte. -/
def Obligations.RandomIsAFreeByteMasked : Prop :=
  ∀ (s : State) (x : Reg) (nn : Byte), ∃ t, exec (.rnd x nn) s = .next t ∧
    t.reg x = (Config.randByte s.draws &&& nn) ∧ (∀ k, nn.getLsbD k = false → (t.reg x).getLsbD k = false) ∧
    (∀ r, r ≠ x → t.reg r = s.reg r) ∧ t.draws = s.draws + 1 ∧ t.pc = s.pc + 2 ∧
    t = { s with regs := t.regs, pc := t.pc, draws := t.draws } ∧ sameBytes s t

/-- Formalises R142, R144: JP leaves PC = NNN and JP V0 leaves PC = V0 + NNN, an exact sum, whatever the X nibble holds,
in every state, odd targets, self-jumps and targets past the memory included; no register, byte of memory or other
state changes, and a target of 4095 or more is fatal at the next fetch. -/
def Obligations.JumpResults : Prop :=
  ∀ (s : State) (nnn : Addr12),
    (∃ t, exec (.jp nnn) s = .next t ∧ t.pc.toNat = nnn.toNat ∧ onlyPc s t ∧ faultsAtNextFetch t) ∧
    ∃ t, exec (.jpV0 nnn) s = .next t ∧ t.pc.toNat = (s.reg 0).toNat + nnn.toNat ∧ onlyPc s t ∧
      faultsAtNextFetch t

/-- Derived from 41_control_transfer.md sections 1 and 2, 60_exceptions.md section 1, 92_eei_decisions.md D7, D25,
notes/assumptions/20.md. Where the stack is not a bounded one that is full, SYS and CALL push PC + 2 and leave PC =
NNN, with every register, every byte of memory and everything else unchanged, and the matching RET restores PC + 2 and
the stack; where STACK_CAPACITY is a bound that the depth equals, they halt with STACK_OVERFLOW and their word, and
nothing else changes. The overflow is the spec's own decision D7, the record D25; that the two SYS terms 0E0 and 0EE,
which no word decodes to, are calls too is the model's choice, log 20. -/
def Obligations.CallPushesAndJumps : Prop :=
  ∀ (s : State) (nnn : Addr12) (i : Instr), i = .sys nnn ∨ i = .call nnn →
    (s.cfg.stackCapacity ≠ some s.stack.length → ∃ t, exec i s = .next t ∧
      t.pc.toNat = nnn.toNat ∧ t.stack = (s.pc + 2) :: s.stack ∧
      t = { s with pc := t.pc, stack := t.stack } ∧ (∀ r, t.reg r = s.reg r) ∧ sameBytes s t ∧
      ∃ u, exec .ret t = .next u ∧ u.pc = s.pc + 2 ∧ u.stack = s.stack) ∧
    (s.cfg.stackCapacity = some s.stack.length →
      exec i s = .next { s with status := .halted (fatalRecord .stackOverflow s.pc (some (encode i)) none none) })

/-- Formalises R140: With v on top of the stack RET leaves PC = v, with no further advance, and the rest of the stack, and
changes nothing else, a v of 4095 or more being fatal at the next fetch; with the stack empty it halts with
STACK_UNDERFLOW and opcode 00EE, and nothing else changes. -/
def Obligations.ReturnPopsIntoPc : Prop :=
  ∀ s : State,
    (∀ v rest, s.stack = v :: rest → ∃ t, exec .ret s = .next t ∧ t.pc = v ∧ t.stack = rest ∧
      t = { s with pc := t.pc, stack := t.stack } ∧ (∀ r, t.reg r = s.reg r) ∧ sameBytes s t ∧ faultsAtNextFetch t) ∧
    (s.stack = [] →
      exec .ret s = .next { s with status := .halted (fatalRecord .stackUnderflow s.pc (some 0x00EE) none none) })

/-- Derived from 41_control_transfer.md section 1, 95_test_vectors.md S6, notes/assumptions/20.md. For SYS and CALL from a
running core: if the call answers t and t still runs, RET from any state that has t's stack answers a state whose PC
is the call's PC + 2 and whose stack is the one before the call. -/
def Obligations.CallThenReturnComesBack : Prop :=
  ∀ (s t u : State) (nnn : Addr12) (i : Instr), i = .sys nnn ∨ i = .call nnn → s.status = .running →
    exec i s = .next t → t.status = .running → u.stack = t.stack →
    ∃ v, exec .ret u = .next v ∧ v.pc = s.pc + 2 ∧ v.stack = s.stack

/-- Formalises R160, R161, R162: SE and SNE with an immediate, and SE of two registers, complete in every state, advance
PC by 4 where the compared bytes are equal (SE) or differ (SNE) and by 2 otherwise, and change no register, no byte of
memory and nothing else; a PC of 4095 or more is fatal at the next fetch; no word 5XYn with n not 0 decodes, and a
running core that fetches one, with no host event due, halts with INVALID_INSTRUCTION and that word. -/
def Obligations.CompareSkips : Prop :=
  ∀ (s : State) (x y : Reg) (nn : Byte),
    (∃ t, exec (.seVxNn x nn) s = .next t ∧ t.pc = (if s.reg x = nn then s.pc + 4 else s.pc + 2) ∧
      onlyPc s t ∧ faultsAtNextFetch t) ∧
    (∃ t, exec (.sneVxNn x nn) s = .next t ∧ t.pc = (if s.reg x ≠ nn then s.pc + 4 else s.pc + 2) ∧
      onlyPc s t ∧ faultsAtNextFetch t) ∧
    (∃ t, exec (.seVxVy x y) s = .next t ∧ t.pc = (if s.reg x = s.reg y then s.pc + 4 else s.pc + 2) ∧
      onlyPc s t ∧ faultsAtNextFetch t) ∧
    ∀ w : Word, w.toNat / 4096 = 5 → w.toNat % 16 ≠ 0 → decode w = none ∧
      (s.inputs = [] → s.status = .running → s.fetch = .ok w →
        step s = .next { s with status := .halted (fatalRecord .invalidInstruction s.pc (some w) none none) })

/-- Derived from 42_skips.md, 92_eei_decisions.md D11. SNE of two registers completes in every state, advances PC by 4
where they differ and by 2 otherwise, so never skips with X = Y, and changes no register, no byte of memory and
nothing else; no word 9XYn with n not 0 decodes, the spec's own decision D11. -/
def Obligations.RegistersDifferSkip : Prop :=
  ∀ (s : State) (x y : Reg),
    (∃ t, exec (.sneVxVy x y) s = .next t ∧ t.pc = (if s.reg x ≠ s.reg y then s.pc + 4 else s.pc + 2) ∧ onlyPc s t) ∧
    ∀ w : Word, w.toNat / 4096 = 9 → w.toNat % 16 ≠ 0 → decode w = none

/-- Derived from 42_skips.md, 92_eei_decisions.md D17. With Vx = k below 16, SKP advances PC by 4 where key k is down and
by 2 otherwise, SKNP the other way, and nothing else changes; with Vx of 16 or more each halts with
KEY_INDEX_OUT_OF_RANGE, its word and the key index, the spec's own decision D17, and nothing else changes. -/
def Obligations.KeySkips : Prop :=
  ∀ (s : State) (x : Reg),
    (∀ k : Fin 16, (s.reg x).toNat = k.val →
      (∃ t, exec (.skp x) s = .next t ∧
        t.pc = (if s.keys.getLsbD k.val = true then s.pc + 4 else s.pc + 2) ∧ onlyPc s t) ∧
      ∃ t, exec (.sknp x) s = .next t ∧
        t.pc = (if s.keys.getLsbD k.val = true then s.pc + 2 else s.pc + 4) ∧ onlyPc s t) ∧
    (16 ≤ (s.reg x).toNat → ∀ i, i = .skp x ∨ i = .sknp x → exec i s = .next { s with
      status := .halted (fatalRecord .keyIndexOutOfRange s.pc (some (encode i)) none (some (s.reg x))) })

/-- Formalises R210: LD I completes in every state with I = NNN, at most 0xFFF, PC + 2, and every register, byte of memory
and other state unchanged. -/
def Obligations.LoadIndexResult : Prop :=
  ∀ (s : State) (nnn : Addr12), ∃ t, exec (.ldI nnn) s = .next t ∧ t.i.toNat = nnn.toNat ∧ t.pc = s.pc + 2 ∧
    t = { s with i := t.i, pc := t.pc } ∧ (∀ r, t.reg r = s.reg r) ∧ sameBytes s t

/-- Derived from 44_memory_index.md, 92_eei_decisions.md D6. Where the sum is at most 0xFFFF or I_OVERFLOW is wrap, FX1E
leaves I = the sum modulo 65536, PC + 2, every register (VF too), byte of memory and all else unchanged; where the sum
exceeds 0xFFFF and I_OVERFLOW is fatal, it halts with I_OVERFLOW_FAULT and its word, and nothing else changes. -/
def Obligations.AddToIndexResult : Prop :=
  ∀ (s : State) (x : Reg),
    let sum := s.i.toNat + (s.reg x).toNat
    (sum ≤ 0xFFFF ∨ s.cfg.iOverflow = .wrap → ∃ t, exec (.addIVx x) s = .next t ∧ t.i.toNat = sum % 65536 ∧
      t.pc = s.pc + 2 ∧ t = { s with i := t.i, pc := t.pc } ∧ (∀ r, t.reg r = s.reg r) ∧ sameBytes s t) ∧
    (0xFFFF < sum → s.cfg.iOverflow = .fatal → exec (.addIVx x) s = .next { s with
      status := .halted (fatalRecord .iOverflowFault s.pc (some (encode (.addIVx x))) none none) })

/-- Derived from 44_memory_index.md, 92_eei_decisions.md D16. LD F completes in every state with I = 5 Vx exactly, for
every Vx of 0 to 255 (that 16 and more are not masked is the spec's own decision D16), PC + 2, and every register,
byte of memory and other state unchanged. -/
def Obligations.GlyphAddressResult : Prop :=
  ∀ (s : State) (x : Reg), ∃ t, exec (.ldFVx x) s = .next t ∧ t.i.toNat = (s.reg x).toNat * 5 ∧ t.pc = s.pc + 2 ∧
    t = { s with i := t.i, pc := t.pc } ∧ (∀ r, t.reg r = s.reg r) ∧ sameBytes s t

/-- Formalises R213: Where I + 2 is below 4096, the bytes at the effective addresses 0, 1, 2 past I are Vx / 100, Vx / 10
mod 10 and Vx mod 10, every other byte, every register, I and all else are unchanged, and PC advances by 2; otherwise
the core halts at the first of I, I+1, I+2 that is 4096 or more, with its word, the digits before it stored, and no
other byte and nothing else changed. -/
def Obligations.DecimalDigitsStored : Prop :=
  ∀ (s : State) (x : Reg),
    let v := (s.reg x).toNat
    let digit : Nat → Nat := fun k => if k = 0 then v / 100 else if k = 1 then v / 10 % 10 else v % 10
    (s.effAddr 2 < 4096 → ∃ t, exec (.ldBVx x) s = .next t ∧
      (∀ k, k < 3 → (t.byteAt (s.effAddr k)).toNat = digit k) ∧
      (∀ a, (∀ k, k < 3 → a ≠ s.effAddr k) → t.byteAt a = s.byteAt a) ∧ t.pc = s.pc + 2 ∧
      t = { s with pc := t.pc, mem := t.mem } ∧ ∀ r, t.reg r = s.reg r) ∧
    (4096 ≤ s.effAddr 2 → ∃ t, exec (.ldBVx x) s = .next t ∧
      t.status = .halted (fatalRecord .memOutOfBounds s.pc (some (encode (.ldBVx x))) (some (max s.i.toNat 4096)) none) ∧
      (∀ k, k < 3 → s.effAddr k < 4096 → (t.byteAt (s.effAddr k)).toNat = digit k) ∧
      (∀ a, (∀ k, k < 3 → s.effAddr k < 4096 → a ≠ s.effAddr k) → t.byteAt a = s.byteAt a) ∧
      t = { s with mem := t.mem, status := t.status })

/-- Derived from 44_memory_index.md, 92_eei_decisions.md D20. Where I + X is below 4096, the byte at the effective address
k past I is Vk for every k up to X (VF too with X = F), every other byte, every register, I (the spec's own decision
D20) and all else are unchanged, and PC advances by 2. -/
def Obligations.RegistersStored : Prop :=
  ∀ (s : State) (x : Reg), s.effAddr x.val < 4096 → ∃ t, exec (.ldMemVx x) s = .next t ∧
    (∀ k : Reg, k ≤ x → t.byteAt (s.effAddr k.val) = s.reg k) ∧
    (∀ a, (∀ k : Reg, k ≤ x → a ≠ s.effAddr k.val) → t.byteAt a = s.byteAt a) ∧ t.pc = s.pc + 2 ∧
    t = { s with pc := t.pc, mem := t.mem } ∧ ∀ r, t.reg r = s.reg r

/-- Derived from 44_memory_index.md, 60_exceptions.md section 1, 92_eei_decisions.md D27. Where I + X is 4096 or more,
FX55 halts with MEM_OUT_OF_BOUNDS, its word and the first of I..I+X that is 4096 or more; Vk is stored for every k
whose address is below 4096, no other byte changes, PC is not advanced and nothing else changes. -/
def Obligations.RegistersStoredUpToTheFault : Prop :=
  ∀ (s : State) (x : Reg), 4096 ≤ s.effAddr x.val → ∃ t, exec (.ldMemVx x) s = .next t ∧
    t.status = .halted (fatalRecord .memOutOfBounds s.pc (some (encode (.ldMemVx x))) (some (max s.i.toNat 4096)) none) ∧
    (∀ k : Reg, k ≤ x → s.effAddr k.val < 4096 → t.byteAt (s.effAddr k.val) = s.reg k) ∧
    (∀ a, (∀ k : Reg, k ≤ x → s.effAddr k.val < 4096 → a ≠ s.effAddr k.val) → t.byteAt a = s.byteAt a) ∧
    t = { s with mem := t.mem, status := t.status }

/-- Derived from 44_memory_index.md, 92_eei_decisions.md D20. Where I + X is below 4096, Vk is the byte at the effective
address k past I for every k up to X (VF too with X = F), every register past VX, I (the spec's own decision D20),
every byte and all else are unchanged, and PC advances by 2. -/
def Obligations.RegistersLoaded : Prop :=
  ∀ (s : State) (x : Reg), s.effAddr x.val < 4096 → ∃ t, exec (.ldVxMem x) s = .next t ∧
    (∀ k : Reg, k ≤ x → t.reg k = s.byteAt (s.effAddr k.val)) ∧ (∀ k : Reg, x < k → t.reg k = s.reg k) ∧
    t.pc = s.pc + 2 ∧ onlyRegsPc s t

/-- Derived from 44_memory_index.md, 60_exceptions.md section 1, 92_eei_decisions.md D27. Where I + X is 4096 or more,
FX65 halts with MEM_OUT_OF_BOUNDS, its word and the first of I..I+X that is 4096 or more; Vk is loaded for every k up
to X whose address is below 4096, every other register and every byte is unchanged, PC is not advanced and nothing
else changes. -/
def Obligations.RegistersLoadedUpToTheFault : Prop :=
  ∀ (s : State) (x : Reg), 4096 ≤ s.effAddr x.val → ∃ t, exec (.ldVxMem x) s = .next t ∧
    t.status = .halted (fatalRecord .memOutOfBounds s.pc (some (encode (.ldVxMem x))) (some (max s.i.toNat 4096)) none) ∧
    (∀ k : Reg, t.reg k = if k ≤ x ∧ s.effAddr k.val < 4096 then s.byteAt (s.effAddr k.val) else s.reg k) ∧
    t = { s with regs := t.regs, status := t.status } ∧ sameBytes s t

/-- Derived from 44_memory_index.md, 95_test_vectors.md S8. If FX55 at s answers t and t still runs, then from any state
with t's memory and parameters and s's I, whatever its registers hold, FX65 with the same X completes with Vk as it
was at s for every k up to X. -/
def Obligations.StoreThenLoadGivesTheRegistersBack : Prop :=
  ∀ (s t u : State) (x : Reg), s.status = .running → exec (.ldMemVx x) s = .next t → t.status = .running →
    u.mem = t.mem → u.cfg = t.cfg → u.i = s.i → ∃ v, exec (.ldVxMem x) u = .next v ∧ v.pc = u.pc + 2 ∧
      ∀ k : Reg, k ≤ x → v.reg k = s.reg k

/-- Formalises R230: CLS completes in every state with every pixel 0, DIRTY true also on a clear screen, PC + 2, and every
register (VF too), byte of memory and other state unchanged. -/
def Obligations.ClearScreenResult : Prop :=
  ∀ s : State, ∃ t, exec .cls s = .next t ∧ (∀ x y, x < 64 → y < 32 → pixel t.fb x y = false) ∧ t.dirty = true ∧
    t.pc = s.pc + 2 ∧ t = { s with fb := t.fb, dirty := t.dirty, pc := t.pc } ∧ (∀ r, t.reg r = s.reg r) ∧ sameBytes s t

/-- Derived from 45_display.md sections 1 and 2, 92_eei_decisions.md D12, D13, D14. Where the N bytes at I are inside the
memory (N = 0 always), DRW leaves each pixel (i, j) of the screen XORed with the bit of the sprite at (Vx, Vy) that
covers it, most significant bit leftmost, no wrap of coordinates; DIRTY is set, VF is 0 or 1, PC advances by 2, and no
other register, no byte of memory and nothing else changes. Clipping, bit order and N = 0 are the spec's own decisions
D12, D13, D14. -/
def Obligations.DrawXorsTheSprite : Prop :=
  ∀ (s : State) (x y : Reg) (n : Fin 16), n.val = 0 ∨ s.effAddr n.val ≤ 4096 → ∃ t, exec (.drw x y n) s = .next t ∧
    (∀ i j, i < 64 → j < 32 → pixel t.fb i j =
      (pixel s.fb i j ^^ spriteBit (s.reg x).toNat (s.reg y).toNat (bytesFrom s (s.effAddr 0) n.val) i j)) ∧
    (t.reg flagReg = 0 ∨ t.reg flagReg = 1) ∧ (∀ r, r ≠ flagReg → t.reg r = s.reg r) ∧ t.dirty = true ∧
    t.pc = s.pc + 2 ∧ t = { s with regs := t.regs, fb := t.fb, dirty := t.dirty, pc := t.pc } ∧ sameBytes s t

/-- Formalises R233: For every DXYN whose bytes are inside the memory, VF after it is 1 if some pixel of the screen was
lit before and is dark after, and 0 otherwise, whatever VF was before: bits off the screen and pixels that go from 0
to 1 do not count, and nothing of an earlier draw stays. -/
def Obligations.CollisionIffAPixelWentDark : Prop :=
  ∀ (s : State) (x y : Reg) (n : Fin 16), n.val = 0 ∨ s.effAddr n.val ≤ 4096 → ∃ t, exec (.drw x y n) s = .next t ∧
    ((∃ i j, i < 64 ∧ j < 32 ∧ pixel s.fb i j = true ∧ pixel t.fb i j = false) → t.reg flagReg = 1) ∧
    ((∀ i j, i < 64 → j < 32 → pixel s.fb i j = true → pixel t.fb i j = true) → t.reg flagReg = 0)

/-- Derived from 45_display.md section 1, 92_eei_decisions.md D12. With N at least 1 and I + N above 4096, DRW halts with
MEM_OUT_OF_BOUNDS, its word and the first index of 4096 or more, and nothing else changes: no pixel, not DIRTY, not
VF, not PC. That every byte is read first is the spec's own decision D12. -/
def Obligations.DrawPastTheMemoryChangesNothing : Prop :=
  ∀ (s : State) (x y : Reg) (n : Fin 16), 0 < n.val → 4096 < s.effAddr n.val → exec (.drw x y n) s = .next { s with
    status := .halted (fatalRecord .memOutOfBounds s.pc (some (encode (.drw x y n))) (some (max s.i.toNat 4096)) none) }

/-- Derived from 45_display.md section 3, 95_test_vectors.md S3. If DRW at s answers t, then DRW of the same form from any
state with t's framebuffer, and with the coordinates, I and bytes of s, completes with exactly the framebuffer of s,
and its VF is 1 if the first draw turned some pixel from 0 to 1 and 0 otherwise. -/
def Obligations.DrawTwiceRestoresTheScreen : Prop :=
  ∀ (s t u : State) (x y : Reg) (n : Fin 16), n.val = 0 ∨ s.effAddr n.val ≤ 4096 → exec (.drw x y n) s = .next t →
    u.fb = t.fb → u.reg x = s.reg x → u.reg y = s.reg y → u.i = s.i → sameBytes s u →
    ∃ v, exec (.drw x y n) u = .next v ∧ v.fb = s.fb ∧
      ((∃ i j, i < 64 ∧ j < 32 ∧ pixel s.fb i j = false ∧ pixel t.fb i j = true) → v.reg flagReg = 1) ∧
      ((∀ i j, i < 64 → j < 32 → pixel t.fb i j = true → pixel s.fb i j = true) → v.reg flagReg = 0)

/-- Formalises R250: FX07 completes in every state and changes only Vx and PC, which advances by 2; where DT_TICKS is
within its bound 255 K, and K at least 1, Vx is DT_TICKS / K exactly, at most 255, 0 as soon as DT_TICKS is below K,
and one more for every K ticks more. -/
def Obligations.DelayTimerRead : Prop :=
  ∀ (s : State) (x : Reg), ∃ t v, exec (.ldVxDt x) s = .next t ∧ wroteReg s t x v ∧
    (1 ≤ s.cfg.k → s.dtTicks ≤ 255 * s.cfg.k →
      v.toNat = s.dtTicks / s.cfg.k ∧ s.dtTicks / s.cfg.k ≤ 255 ∧ (s.dtTicks < s.cfg.k → v = 0) ∧
      ∀ d, s.dtTicks = d + s.cfg.k → v.toNat = d / s.cfg.k + 1)

/-- Derived from 46_timers_input.md, 92_eei_decisions.md D18. With key k down and no lower one, FX0A completes with Vx =
k, PC + 2 and nothing else changed; with no key down it answers the same state, PC not advanced. That the lowest index
wins is the spec's own decision D18. -/
def Obligations.WaitForKey : Prop :=
  ∀ (s : State) (x : Reg),
    (∀ k : Fin 16, s.keyDown k = true → (∀ j, j < k → s.keyDown j = false) →
      ∃ t v, exec (.ldVxK x) s = .next t ∧ v.toNat = k.val ∧ wroteReg s t x v) ∧
    ((∀ k, s.keyDown k = false) → exec (.ldVxK x) s = .next s)

/-- Derived from 46_timers_input.md, 92_eei_decisions.md D3, D21. FX15 completes in every state with DT_TICKS = Vx K and
nothing else changed but PC + 2; FX18 completes with ST_TICKS = Vx K, ST_ACTIVE true and audio_start(Vx) emitted, also
while active and with Vx = 0, and nothing else changed but PC + 2. The conversion is the spec's own decision D3, the
trigger D21. -/
def Obligations.TimersSet : Prop :=
  ∀ (s : State) (x : Reg),
    (∃ t, exec (.ldDtVx x) s = .next t ∧ t.dtTicks = (s.reg x).toNat * s.cfg.k ∧ t.pc = s.pc + 2 ∧
      t = { s with dtTicks := t.dtTicks, pc := t.pc } ∧ (∀ r, t.reg r = s.reg r) ∧ sameBytes s t) ∧
    ∃ t, exec (.ldStVx x) s = .next t ∧ t.stTicks = (s.reg x).toNat * s.cfg.k ∧ t.stActive = true ∧
      t.events = s.events ++ [.audioStart (s.reg x)] ∧ t.pc = s.pc + 2 ∧
      t = { s with stTicks := t.stTicks, stActive := t.stActive, events := t.events, pc := t.pc } ∧
      (∀ r, t.reg r = s.reg r) ∧ sameBytes s t

/-- Derived from 60_exceptions.md section 3, 40_cycle.md, 92_eei_decisions.md D2. With no host event due, a running core
whose word decodes to i and whose step answers t: if t runs, DT_TICKS of t is one less than it was, or 0, and for FX15
one less than Vx K, or 0; if t is halted, DT_TICKS is as it was. The phase and the faulting cycle are the spec's own
decision D2. -/
def Obligations.DelayTicksDownEveryCycle : Prop :=
  ∀ (s t : State) (w : Word) (i : Instr), s.inputs = [] → s.status = .running → s.fetch = .ok w → decode w = some i →
    step s = .next t →
    (t.status = .running →
      (∀ x, i = .ldDtVx x → t.dtTicks = (s.reg x).toNat * s.cfg.k - 1) ∧
      ((∀ x, i ≠ .ldDtVx x) → t.dtTicks = s.dtTicks - 1)) ∧
    (t.status ≠ .running → t.dtTicks = s.dtTicks)

/-- Derived from 60_exceptions.md section 3, 46_timers_input.md, 92_eei_decisions.md D21. With no host event due, let st,
act and ev be ST_TICKS, ST_ACTIVE and the event log after the instruction of a cycle that ends running (for FX18 Vx K,
true and the log with audio_start(Vx), else as before): ST_TICKS ends as st - 1, or 0; if act holds and that count
shows as 0, ST_ACTIVE ends false and the log is ev with one audio_stop, else ST_ACTIVE ends as act and the log as ev. -/
def Obligations.SoundStopsOnceAtZero : Prop :=
  ∀ (s t : State) (w : Word) (i : Instr), s.inputs = [] → s.status = .running → s.fetch = .ok w → decode w = some i →
    step s = .next t → t.status = .running →
    ∀ (st : Nat) (act : Bool) (ev : List Event),
      (∀ x, i = .ldStVx x →
        st = (s.reg x).toNat * s.cfg.k ∧ act = true ∧ ev = s.events ++ [.audioStart (s.reg x)]) →
      ((∀ x, i ≠ .ldStVx x) → st = s.stTicks ∧ act = s.stActive ∧ ev = s.events) →
      t.stTicks = st - 1 ∧
      (act = true ∧ (st - 1) / s.cfg.k = 0 → t.stActive = false ∧ t.events = ev ++ [.audioStop]) ∧
      (act = false ∨ 0 < (st - 1) / s.cfg.k → t.stActive = act ∧ t.events = ev)

/-- Derived from 40_cycle.md, 60_exceptions.md section 3, 95_test_vectors.md S4, S5, 92_eei_decisions.md D2. From a
running core with no host event scheduled whose word at PC is 1NNN with NNN = PC, every number n of steps answers a
running state with the same PC, registers, I, stack, screen, keys and bytes, and with DT_TICKS less by n, or 0. So a
count set to d K shows 0 after d K cycles. One tick a cycle is the spec's own decision D2. -/
def Obligations.SelfJumpRunsForeverAndTheDelayRunsOut : Prop :=
  ∀ (n : Nat) (s : State) (nnn : Addr12), s.inputs = [] → s.status = .running → s.pc.toNat = nnn.toNat →
    s.fetch = .ok (encode (.jp nnn)) →
    ∃ t : State, Sys2Proof.core.run n s = .next t ∧ t.pc = s.pc ∧ t.status = .running ∧ t.dtTicks = s.dtTicks - n ∧
      t.stTicks = s.stTicks - n ∧ (∀ r, t.reg r = s.reg r) ∧ t.i = s.i ∧ t.stack = s.stack ∧ t.fb = s.fb ∧
      t.dirty = s.dirty ∧ t.keys = s.keys ∧ sameBytes s t

/-- Derived from 60_exceptions.md section 1, 92_eei_decisions.md D6, D7, D12, D17. For all 35 instructions and every
running state, exec answers a next state; it is halted with a given kind exactly where the instruction's rule raises
that kind: RET on an empty stack, SYS and CALL on a full bounded stack, SKP and SKNP on a key index of 16 or more,
FX1E past 0xFFFF under the fatal parameter, DRW, FX33, FX55, FX65 reaching index 4096; every other instruction never
raises. Kinds 4 to 6 are the spec's own decisions D17, D7, D6. -/
def Obligations.InstructionsRaiseExactlyWhenTheirRulesSay : Prop :=
  ∀ (i : Instr) (s : State), s.status = .running → ∃ t, exec i s = .next t ∧
    ∀ kind : FatalKind, (∃ f, t.status = .halted f ∧ f.kind = kind) ↔ raisesKind s kind i

/-- Derived from 60_exceptions.md section 1, 92_eei_decisions.md D25, D27, notes/assumptions/5.md, notes/assumptions/6.md.
For every instruction and every running state: if exec answers a halted state, the record's pc is PC, its opcode the
instruction's word, its addr and key present as the kind says and in their ranges, and PC, I, STACK, the timers, the
screen, DIRTY, KEYS, the events and the draws are as before; registers change only under FX65, and there only Vk with
k up to X and I + k below 4096; bytes change only under FX33 and FX55, and there only those at the effective addresses
k past I below 4096, k below 3 for FX33 and up to X for FX55. The event log and the count of draws are the model's
own, log 6 and log 5. -/
def Obligations.FaultsArePrecise : Prop :=
  ∀ (i : Instr) (s t : State) (f : FatalRecord), s.status = .running → exec i s = .next t → t.status = .halted f →
    f.opcode = some (encode i) ∧ recordFits f s.pc ∧
    t = { s with status := t.status, regs := t.regs, mem := t.mem } ∧
    ((∀ x, i ≠ .ldVxMem x) → t.regs = s.regs) ∧
    (∀ x, i = .ldVxMem x → ∀ k : Reg, ¬(k ≤ x ∧ s.effAddr k.val < 4096) → t.reg k = s.reg k) ∧
    (¬writesMemory i → sameBytes s t) ∧
    (∀ x, i = .ldBVx x → ∀ a, (∀ k, k < 3 → s.effAddr k < 4096 → a ≠ s.effAddr k) → t.byteAt a = s.byteAt a) ∧
    ∀ x, i = .ldMemVx x →
      ∀ a, (∀ k : Reg, k ≤ x → s.effAddr k.val < 4096 → a ≠ s.effAddr k.val) → t.byteAt a = s.byteAt a

/-- Derived from 10_state.md section 1. For every instruction, every state and every register the instruction neither
names as its destination nor writes as the flag, exec leaves it as it was, whether the instruction completes or
raises. -/
def Obligations.RegistersChangeOnlyWhereNamed : Prop :=
  ∀ (i : Instr) (s t : State) (r : Reg), exec i s = .next t → ¬writesReg i r → t.reg r = s.reg r

/-- Derived from 10_state.md sections 2 to 7, 20_memory.md section 1, notes/assumptions/1.md, notes/assumptions/5.md,
notes/assumptions/6.md, notes/assumptions/7.md. For every instruction and state: I changes only under ANNN, FX1E,
FX29; STACK only under 0NNN, 2NNN, 00EE; FB and DIRTY only under 00E0 and DXYN; bytes of memory only under FX33 and
FX55; DT_TICKS only under FX15; ST_TICKS, ST_ACTIVE and the events only under FX18; the draws only under CXNN; KEYS,
the parameters and the host's schedule under none. The count of draws, the event log, the place of the parameters in
State and the schedule are the model's own, log 5, 6, 1 and 7. -/
def Obligations.SpecialStateChangesOnlyWhereNamed : Prop :=
  ∀ (i : Instr) (s t : State), exec i s = .next t →
    (¬writesIndex i → t.i = s.i) ∧ (¬writesStack i → t.stack = s.stack) ∧
    (¬writesDisplay i → t.fb = s.fb ∧ t.dirty = s.dirty) ∧ (¬writesMemory i → sameBytes s t) ∧
    ((∀ x, i ≠ .ldDtVx x) → t.dtTicks = s.dtTicks) ∧
    ((∀ x, i ≠ .ldStVx x) → t.stTicks = s.stTicks ∧ t.stActive = s.stActive ∧ t.events = s.events) ∧
    ((∀ x nn, i ≠ .rnd x nn) → t.draws = s.draws) ∧ t.keys = s.keys ∧ t.cfg = s.cfg ∧ t.inputs = s.inputs

/-- Derived from 10_state.md section 7, notes/assumptions/1.md. Whatever instruction runs and whatever host events land,
reset among them, a step leaves the configuration as it was. -/
def Obligations.ParametersNeverChange : Prop :=
  ∀ s t : State, step s = .next t → t.cfg = s.cfg

/-- Derived from 20_memory.md sections 1 and 2, notes/assumptions/9.md. From every state whose memory is in canonical form
(addresses below 4096, strictly rising, no entry equal to its reset contents), whatever instruction runs and whatever
host events land, the next state's memory is in canonical form. -/
def Obligations.StepKeepsMemoryCanonical : Prop :=
  ∀ s t : State, memoryCanonical s → step s = .next t → memoryCanonical t

/-- Derived from 10_state.md section 2, 40_cycle.md, 41_control_transfer.md section 2. From every state with PC at most
0x10FE and every stack entry at most 4096, the next state has both again, whatever instruction runs and whatever host
events land: PC never wraps. -/
def Obligations.StepKeepsControlBounds : Prop :=
  ∀ s t : State, controlBounds s → step s = .next t → controlBounds t

/-- Derived from 41_control_transfer.md section 2, 92_eei_decisions.md D7. From every state whose stack is no deeper than
a configured bound, the next state's stack is no deeper than the bound, the spec's own decision D7. -/
def Obligations.StepKeepsDepthBound : Prop :=
  ∀ s t : State, depthBound s → step s = .next t → depthBound t

/-- Derived from 10_state.md section 3, 60_exceptions.md section 3, 92_eei_decisions.md D21. From every state with
DT_TICKS and ST_TICKS at most 255 K and ST_ACTIVE exactly while ST_TICKS / K is not 0, the next state has all three
again, whatever instruction runs and whatever host events land. The sound trigger's details are the spec's own
decision D21. -/
def Obligations.StepKeepsTimerBounds : Prop :=
  ∀ s t : State, timerBounds s → step s = .next t → timerBounds t

/-- Derived from 60_exceptions.md section 1, 92_eei_decisions.md D25. From every state whose record, if it is halted, fits
PC (pc, opcode, addr and key as its kind says, addr at least 4096, key at least 16, opcode absent only for a fetch, so
only with PC at least 4095 and addr the first index past the memory), the next state's record, if it is halted, fits
its PC: the record is the spec's own decision D25. -/
def Obligations.StepKeepsTheFaultRecord : Prop :=
  ∀ s t : State, haltedRecordFits s → step s = .next t → haltedRecordFits t

/-- Derived from 60_exceptions.md section 3, 92_eei_decisions.md D21, notes/assumptions/6.md. From every state in whose
event log each audio_stop follows an audio_start with no audio_stop between, and whose playback is active only after a
start not yet stopped, the next state has both again: reaching zero stops playback exactly once. -/
def Obligations.StepKeepsAudioOrder : Prop :=
  ∀ s t : State, audioOrder s → step s = .next t → audioOrder t

/-- Derived from 10_state.md section 8, 70_reset_and_hazards.md section 1, notes/assumptions/2.md, notes/assumptions/6.md,
notes/assumptions/8.md, notes/assumptions/9.md. State.reset meets the configuration, memory, control, depth, timer,
record and audio invariants; and from every state that meets them, reset with an accepted ROM answers a state that
meets them. That State.reset has a legal configuration rests on its CLOCK_HZ of 60, the model's choice, log 2; that it
holds no ROM is log 8; the event log and the canonical form of memory are log 6 and log 9. -/
def Obligations.ResetMeetsTheInvariants : Prop :=
  Inv State.reset ∧ ∀ (s t : State) (rom : List Byte), Inv s → s.boot rom = some t → Inv t
end

