-- ==== Sys2Proof/Laws/Decode.lean ====
section
/-!
SUPPORT. What the fields of an encoded word are, and what the bytes of a word join to (spec/30_encoding.md R90;
spec/20_memory.md R63).
-/

namespace Sys2Proof

theorem joinBytes_toNat (hi lo : Byte) : (joinBytes hi lo).toNat = hi.toNat * 256 + lo.toNat := by
  have := lo.isLt
  rw [joinBytes, BitVec.toNat_append, Nat.shiftLeft_eq, ← Nat.shiftLeft_eq, ← Nat.shiftLeft_add_eq_or_of_lt this,
    Nat.shiftLeft_eq]

@[simp] theorem joinBytes_split (w : Word) : joinBytes (highByte w) (lowByte w) = w := by
  have := w.isLt
  apply BitVec.eq_of_toNat_eq
  simp only [joinBytes_toNat, highByte, lowByte, BitVec.extractLsb'_toNat, Nat.shiftRight_eq_div_pow]
  omega

@[simp] theorem joinBytes_high (hi lo : Byte) : highByte (joinBytes hi lo) = hi := by
  have h := hi.isLt
  have l := lo.isLt
  apply BitVec.eq_of_toNat_eq
  simp only [highByte, BitVec.extractLsb'_toNat, joinBytes_toNat, Nat.shiftRight_eq_div_pow]
  omega

@[simp] theorem joinBytes_low (hi lo : Byte) : lowByte (joinBytes hi lo) = lo := by
  have h := hi.isLt
  have l := lo.isLt
  apply BitVec.eq_of_toNat_eq
  simp only [lowByte, BitVec.extractLsb'_toNat, joinBytes_toNat, Nat.shiftRight_zero]
  omega

section Fields

variable {op : Nat} (hop : op < 16)
include hop

theorem wordNNN_toNat (nnn : Addr12) : (wordNNN op nnn).toNat = op * 4096 + nnn.toNat := by
  have := nnn.isLt
  simp only [wordNNN, BitVec.toNat_ofNat]; omega

theorem wordXNN_toNat (x : Reg) (nn : Byte) : (wordXNN op x nn).toNat = op * 4096 + x.val * 256 + nn.toNat := by
  have := nn.isLt; have := x.isLt
  simp only [wordXNN, BitVec.toNat_ofNat]; omega

theorem wordXYN_toNat (x y : Reg) (n : Fin 16) :
    (wordXYN op x y n).toNat = op * 4096 + x.val * 256 + y.val * 16 + n.val := by
  have := x.isLt; have := y.isLt; have := n.isLt
  simp only [wordXYN, BitVec.toNat_ofNat]; omega

theorem fieldOp_wordNNN (nnn : Addr12) : fieldOp (wordNNN op nnn) = op := by
  have := nnn.isLt
  rw [fieldOp, wordNNN_toNat hop]; omega

theorem fieldNNN_wordNNN (nnn : Addr12) : fieldNNN (wordNNN op nnn) = nnn := by
  have := nnn.isLt
  apply BitVec.eq_of_toNat_eq
  rw [fieldNNN, wordNNN_toNat hop, BitVec.toNat_ofNat]; omega

theorem fieldOp_wordXNN (x : Reg) (nn : Byte) : fieldOp (wordXNN op x nn) = op := by
  have := nn.isLt; have := x.isLt
  rw [fieldOp, wordXNN_toNat hop]; omega

theorem fieldX_wordXNN (x : Reg) (nn : Byte) : fieldX (wordXNN op x nn) = x := by
  have := nn.isLt; have := x.isLt
  apply Fin.ext
  simp only [fieldX, wordXNN_toNat hop]; omega

theorem fieldNN_wordXNN (x : Reg) (nn : Byte) : fieldNN (wordXNN op x nn) = nn := by
  have := nn.isLt; have := x.isLt
  apply BitVec.eq_of_toNat_eq
  rw [fieldNN, wordXNN_toNat hop, BitVec.toNat_ofNat]; omega

theorem fieldOp_wordXYN (x y : Reg) (n : Fin 16) : fieldOp (wordXYN op x y n) = op := by
  have := x.isLt; have := y.isLt; have := n.isLt
  rw [fieldOp, wordXYN_toNat hop]; omega

theorem fieldX_wordXYN (x y : Reg) (n : Fin 16) : fieldX (wordXYN op x y n) = x := by
  have := x.isLt; have := y.isLt; have := n.isLt
  apply Fin.ext
  simp only [fieldX, wordXYN_toNat hop]; omega

theorem fieldY_wordXYN (x y : Reg) (n : Fin 16) : fieldY (wordXYN op x y n) = y := by
  have := x.isLt; have := y.isLt; have := n.isLt
  apply Fin.ext
  simp only [fieldY, wordXYN_toNat hop]; omega

theorem fieldN_wordXYN (x y : Reg) (n : Fin 16) : fieldN (wordXYN op x y n) = n := by
  have := x.isLt; have := y.isLt; have := n.isLt
  apply Fin.ext
  simp only [fieldN, wordXYN_toNat hop]; omega

end Fields

/-- A word put together again from the fields the formats read (R90). -/
theorem wordNNN_fields (w : Word) : wordNNN (fieldOp w) (fieldNNN w) = w := by
  have := w.isLt
  apply BitVec.eq_of_toNat_eq
  simp only [wordNNN, fieldOp, fieldNNN, BitVec.toNat_ofNat]; omega

theorem wordXNN_fields (w : Word) : wordXNN (fieldOp w) (fieldX w) (fieldNN w) = w := by
  have := w.isLt
  apply BitVec.eq_of_toNat_eq
  simp only [wordXNN, fieldOp, fieldX, fieldNN, BitVec.toNat_ofNat]; omega

theorem wordXYN_fields (w : Word) : wordXYN (fieldOp w) (fieldX w) (fieldY w) (fieldN w) = w := by
  have := w.isLt
  apply BitVec.eq_of_toNat_eq
  simp only [wordXYN, fieldOp, fieldX, fieldY, fieldN, BitVec.toNat_ofNat]; omega

end Sys2Proof
end

