-- ==== Sys2Proof/Laws/State.lean ====
section
/-!
SUPPORT. What each field is after each update of the state, so that no proof unfolds a record update.
-/

namespace Sys2Proof.Machine.State

variable (s : State)

@[simp] theorem setReg_regs (r : Reg) (v : Byte) : (s.setReg r v).regs = s.regs.set r.val v := rfl
@[simp] theorem setReg_i (r : Reg) (v : Byte) : (s.setReg r v).i = s.i := rfl
@[simp] theorem setReg_pc (r : Reg) (v : Byte) : (s.setReg r v).pc = s.pc := rfl
@[simp] theorem setReg_stack (r : Reg) (v : Byte) : (s.setReg r v).stack = s.stack := rfl
@[simp] theorem setReg_dtTicks (r : Reg) (v : Byte) : (s.setReg r v).dtTicks = s.dtTicks := rfl
@[simp] theorem setReg_stTicks (r : Reg) (v : Byte) : (s.setReg r v).stTicks = s.stTicks := rfl
@[simp] theorem setReg_stActive (r : Reg) (v : Byte) : (s.setReg r v).stActive = s.stActive := rfl
@[simp] theorem setReg_fb (r : Reg) (v : Byte) : (s.setReg r v).fb = s.fb := rfl
@[simp] theorem setReg_dirty (r : Reg) (v : Byte) : (s.setReg r v).dirty = s.dirty := rfl
@[simp] theorem setReg_keys (r : Reg) (v : Byte) : (s.setReg r v).keys = s.keys := rfl
@[simp] theorem setReg_status (r : Reg) (v : Byte) : (s.setReg r v).status = s.status := rfl
@[simp] theorem setReg_mem (r : Reg) (v : Byte) : (s.setReg r v).mem = s.mem := rfl
@[simp] theorem setReg_cfg (r : Reg) (v : Byte) : (s.setReg r v).cfg = s.cfg := rfl
@[simp] theorem setReg_draws (r : Reg) (v : Byte) : (s.setReg r v).draws = s.draws := rfl
@[simp] theorem setReg_events (r : Reg) (v : Byte) : (s.setReg r v).events = s.events := rfl
@[simp] theorem setReg_inputs (r : Reg) (v : Byte) : (s.setReg r v).inputs = s.inputs := rfl
@[simp] theorem setReg_byteAt (r : Reg) (v : Byte) (q : Nat) : (s.setReg r v).byteAt q = s.byteAt q := rfl

@[simp] theorem setI_regs (v : Word) : (s.setI v).regs = s.regs := rfl
@[simp] theorem setI_i (v : Word) : (s.setI v).i = v := rfl
@[simp] theorem setI_pc (v : Word) : (s.setI v).pc = s.pc := rfl
@[simp] theorem setI_stack (v : Word) : (s.setI v).stack = s.stack := rfl
@[simp] theorem setI_dtTicks (v : Word) : (s.setI v).dtTicks = s.dtTicks := rfl
@[simp] theorem setI_stTicks (v : Word) : (s.setI v).stTicks = s.stTicks := rfl
@[simp] theorem setI_stActive (v : Word) : (s.setI v).stActive = s.stActive := rfl
@[simp] theorem setI_fb (v : Word) : (s.setI v).fb = s.fb := rfl
@[simp] theorem setI_dirty (v : Word) : (s.setI v).dirty = s.dirty := rfl
@[simp] theorem setI_keys (v : Word) : (s.setI v).keys = s.keys := rfl
@[simp] theorem setI_status (v : Word) : (s.setI v).status = s.status := rfl
@[simp] theorem setI_mem (v : Word) : (s.setI v).mem = s.mem := rfl
@[simp] theorem setI_cfg (v : Word) : (s.setI v).cfg = s.cfg := rfl
@[simp] theorem setI_draws (v : Word) : (s.setI v).draws = s.draws := rfl
@[simp] theorem setI_events (v : Word) : (s.setI v).events = s.events := rfl
@[simp] theorem setI_inputs (v : Word) : (s.setI v).inputs = s.inputs := rfl
@[simp] theorem setI_reg (v : Word) (q : Reg) : (s.setI v).reg q = s.reg q := rfl
@[simp] theorem setI_byteAt (v : Word) (q : Nat) : (s.setI v).byteAt q = s.byteAt q := rfl

@[simp] theorem setPc_regs (v : Word) : (s.setPc v).regs = s.regs := rfl
@[simp] theorem setPc_i (v : Word) : (s.setPc v).i = s.i := rfl
@[simp] theorem setPc_pc (v : Word) : (s.setPc v).pc = v := rfl
@[simp] theorem setPc_stack (v : Word) : (s.setPc v).stack = s.stack := rfl
@[simp] theorem setPc_dtTicks (v : Word) : (s.setPc v).dtTicks = s.dtTicks := rfl
@[simp] theorem setPc_stTicks (v : Word) : (s.setPc v).stTicks = s.stTicks := rfl
@[simp] theorem setPc_stActive (v : Word) : (s.setPc v).stActive = s.stActive := rfl
@[simp] theorem setPc_fb (v : Word) : (s.setPc v).fb = s.fb := rfl
@[simp] theorem setPc_dirty (v : Word) : (s.setPc v).dirty = s.dirty := rfl
@[simp] theorem setPc_keys (v : Word) : (s.setPc v).keys = s.keys := rfl
@[simp] theorem setPc_status (v : Word) : (s.setPc v).status = s.status := rfl
@[simp] theorem setPc_mem (v : Word) : (s.setPc v).mem = s.mem := rfl
@[simp] theorem setPc_cfg (v : Word) : (s.setPc v).cfg = s.cfg := rfl
@[simp] theorem setPc_draws (v : Word) : (s.setPc v).draws = s.draws := rfl
@[simp] theorem setPc_events (v : Word) : (s.setPc v).events = s.events := rfl
@[simp] theorem setPc_inputs (v : Word) : (s.setPc v).inputs = s.inputs := rfl
@[simp] theorem setPc_reg (v : Word) (q : Reg) : (s.setPc v).reg q = s.reg q := rfl
@[simp] theorem setPc_byteAt (v : Word) (q : Nat) : (s.setPc v).byteAt q = s.byteAt q := rfl

@[simp] theorem advance_regs : (s.advance).regs = s.regs := rfl
@[simp] theorem advance_i : (s.advance).i = s.i := rfl
@[simp] theorem advance_pc : (s.advance).pc = s.pc + 2 := rfl
@[simp] theorem advance_stack : (s.advance).stack = s.stack := rfl
@[simp] theorem advance_dtTicks : (s.advance).dtTicks = s.dtTicks := rfl
@[simp] theorem advance_stTicks : (s.advance).stTicks = s.stTicks := rfl
@[simp] theorem advance_stActive : (s.advance).stActive = s.stActive := rfl
@[simp] theorem advance_fb : (s.advance).fb = s.fb := rfl
@[simp] theorem advance_dirty : (s.advance).dirty = s.dirty := rfl
@[simp] theorem advance_keys : (s.advance).keys = s.keys := rfl
@[simp] theorem advance_status : (s.advance).status = s.status := rfl
@[simp] theorem advance_mem : (s.advance).mem = s.mem := rfl
@[simp] theorem advance_cfg : (s.advance).cfg = s.cfg := rfl
@[simp] theorem advance_draws : (s.advance).draws = s.draws := rfl
@[simp] theorem advance_events : (s.advance).events = s.events := rfl
@[simp] theorem advance_inputs : (s.advance).inputs = s.inputs := rfl
@[simp] theorem advance_reg (q : Reg) : (s.advance).reg q = s.reg q := rfl
@[simp] theorem advance_byteAt (q : Nat) : (s.advance).byteAt q = s.byteAt q := rfl

@[simp] theorem skipIf_regs (c : Bool) : (s.skipIf c).regs = s.regs := rfl
@[simp] theorem skipIf_i (c : Bool) : (s.skipIf c).i = s.i := rfl
@[simp] theorem skipIf_pc (c : Bool) : (s.skipIf c).pc = if c then s.pc + 4 else s.pc + 2 := rfl
@[simp] theorem skipIf_stack (c : Bool) : (s.skipIf c).stack = s.stack := rfl
@[simp] theorem skipIf_dtTicks (c : Bool) : (s.skipIf c).dtTicks = s.dtTicks := rfl
@[simp] theorem skipIf_stTicks (c : Bool) : (s.skipIf c).stTicks = s.stTicks := rfl
@[simp] theorem skipIf_stActive (c : Bool) : (s.skipIf c).stActive = s.stActive := rfl
@[simp] theorem skipIf_fb (c : Bool) : (s.skipIf c).fb = s.fb := rfl
@[simp] theorem skipIf_dirty (c : Bool) : (s.skipIf c).dirty = s.dirty := rfl
@[simp] theorem skipIf_keys (c : Bool) : (s.skipIf c).keys = s.keys := rfl
@[simp] theorem skipIf_status (c : Bool) : (s.skipIf c).status = s.status := rfl
@[simp] theorem skipIf_mem (c : Bool) : (s.skipIf c).mem = s.mem := rfl
@[simp] theorem skipIf_cfg (c : Bool) : (s.skipIf c).cfg = s.cfg := rfl
@[simp] theorem skipIf_draws (c : Bool) : (s.skipIf c).draws = s.draws := rfl
@[simp] theorem skipIf_events (c : Bool) : (s.skipIf c).events = s.events := rfl
@[simp] theorem skipIf_inputs (c : Bool) : (s.skipIf c).inputs = s.inputs := rfl
@[simp] theorem skipIf_reg (c : Bool) (q : Reg) : (s.skipIf c).reg q = s.reg q := rfl
@[simp] theorem skipIf_byteAt (c : Bool) (q : Nat) : (s.skipIf c).byteAt q = s.byteAt q := rfl

@[simp] theorem setByte_regs (a : Nat) (v : Byte) : (s.setByte a v).regs = s.regs := rfl
@[simp] theorem setByte_i (a : Nat) (v : Byte) : (s.setByte a v).i = s.i := rfl
@[simp] theorem setByte_pc (a : Nat) (v : Byte) : (s.setByte a v).pc = s.pc := rfl
@[simp] theorem setByte_stack (a : Nat) (v : Byte) : (s.setByte a v).stack = s.stack := rfl
@[simp] theorem setByte_dtTicks (a : Nat) (v : Byte) : (s.setByte a v).dtTicks = s.dtTicks := rfl
@[simp] theorem setByte_stTicks (a : Nat) (v : Byte) : (s.setByte a v).stTicks = s.stTicks := rfl
@[simp] theorem setByte_stActive (a : Nat) (v : Byte) : (s.setByte a v).stActive = s.stActive := rfl
@[simp] theorem setByte_fb (a : Nat) (v : Byte) : (s.setByte a v).fb = s.fb := rfl
@[simp] theorem setByte_dirty (a : Nat) (v : Byte) : (s.setByte a v).dirty = s.dirty := rfl
@[simp] theorem setByte_keys (a : Nat) (v : Byte) : (s.setByte a v).keys = s.keys := rfl
@[simp] theorem setByte_status (a : Nat) (v : Byte) : (s.setByte a v).status = s.status := rfl
@[simp] theorem setByte_mem (a : Nat) (v : Byte) : (s.setByte a v).mem = Memory.write s.cfg s.mem a v := rfl
@[simp] theorem setByte_cfg (a : Nat) (v : Byte) : (s.setByte a v).cfg = s.cfg := rfl
@[simp] theorem setByte_draws (a : Nat) (v : Byte) : (s.setByte a v).draws = s.draws := rfl
@[simp] theorem setByte_events (a : Nat) (v : Byte) : (s.setByte a v).events = s.events := rfl
@[simp] theorem setByte_inputs (a : Nat) (v : Byte) : (s.setByte a v).inputs = s.inputs := rfl
@[simp] theorem setByte_reg (a : Nat) (v : Byte) (q : Reg) : (s.setByte a v).reg q = s.reg q := rfl

@[simp] theorem setDelay_regs (t : Nat) : (s.setDelay t).regs = s.regs := rfl
@[simp] theorem setDelay_i (t : Nat) : (s.setDelay t).i = s.i := rfl
@[simp] theorem setDelay_pc (t : Nat) : (s.setDelay t).pc = s.pc := rfl
@[simp] theorem setDelay_stack (t : Nat) : (s.setDelay t).stack = s.stack := rfl
@[simp] theorem setDelay_dtTicks (t : Nat) : (s.setDelay t).dtTicks = t := rfl
@[simp] theorem setDelay_stTicks (t : Nat) : (s.setDelay t).stTicks = s.stTicks := rfl
@[simp] theorem setDelay_stActive (t : Nat) : (s.setDelay t).stActive = s.stActive := rfl
@[simp] theorem setDelay_fb (t : Nat) : (s.setDelay t).fb = s.fb := rfl
@[simp] theorem setDelay_dirty (t : Nat) : (s.setDelay t).dirty = s.dirty := rfl
@[simp] theorem setDelay_keys (t : Nat) : (s.setDelay t).keys = s.keys := rfl
@[simp] theorem setDelay_status (t : Nat) : (s.setDelay t).status = s.status := rfl
@[simp] theorem setDelay_mem (t : Nat) : (s.setDelay t).mem = s.mem := rfl
@[simp] theorem setDelay_cfg (t : Nat) : (s.setDelay t).cfg = s.cfg := rfl
@[simp] theorem setDelay_draws (t : Nat) : (s.setDelay t).draws = s.draws := rfl
@[simp] theorem setDelay_events (t : Nat) : (s.setDelay t).events = s.events := rfl
@[simp] theorem setDelay_inputs (t : Nat) : (s.setDelay t).inputs = s.inputs := rfl
@[simp] theorem setDelay_reg (t : Nat) (q : Reg) : (s.setDelay t).reg q = s.reg q := rfl
@[simp] theorem setDelay_byteAt (t : Nat) (q : Nat) : (s.setDelay t).byteAt q = s.byteAt q := rfl

@[simp] theorem setSound_regs (t : Nat) (b : Bool) : (s.setSound t b).regs = s.regs := rfl
@[simp] theorem setSound_i (t : Nat) (b : Bool) : (s.setSound t b).i = s.i := rfl
@[simp] theorem setSound_pc (t : Nat) (b : Bool) : (s.setSound t b).pc = s.pc := rfl
@[simp] theorem setSound_stack (t : Nat) (b : Bool) : (s.setSound t b).stack = s.stack := rfl
@[simp] theorem setSound_dtTicks (t : Nat) (b : Bool) : (s.setSound t b).dtTicks = s.dtTicks := rfl
@[simp] theorem setSound_stTicks (t : Nat) (b : Bool) : (s.setSound t b).stTicks = t := rfl
@[simp] theorem setSound_stActive (t : Nat) (b : Bool) : (s.setSound t b).stActive = b := rfl
@[simp] theorem setSound_fb (t : Nat) (b : Bool) : (s.setSound t b).fb = s.fb := rfl
@[simp] theorem setSound_dirty (t : Nat) (b : Bool) : (s.setSound t b).dirty = s.dirty := rfl
@[simp] theorem setSound_keys (t : Nat) (b : Bool) : (s.setSound t b).keys = s.keys := rfl
@[simp] theorem setSound_status (t : Nat) (b : Bool) : (s.setSound t b).status = s.status := rfl
@[simp] theorem setSound_mem (t : Nat) (b : Bool) : (s.setSound t b).mem = s.mem := rfl
@[simp] theorem setSound_cfg (t : Nat) (b : Bool) : (s.setSound t b).cfg = s.cfg := rfl
@[simp] theorem setSound_draws (t : Nat) (b : Bool) : (s.setSound t b).draws = s.draws := rfl
@[simp] theorem setSound_events (t : Nat) (b : Bool) : (s.setSound t b).events = s.events := rfl
@[simp] theorem setSound_inputs (t : Nat) (b : Bool) : (s.setSound t b).inputs = s.inputs := rfl
@[simp] theorem setSound_reg (t : Nat) (b : Bool) (q : Reg) : (s.setSound t b).reg q = s.reg q := rfl
@[simp] theorem setSound_byteAt (t : Nat) (b : Bool) (q : Nat) : (s.setSound t b).byteAt q = s.byteAt q := rfl

@[simp] theorem redraw_regs (f : FrameBuffer) : (s.redraw f).regs = s.regs := rfl
@[simp] theorem redraw_i (f : FrameBuffer) : (s.redraw f).i = s.i := rfl
@[simp] theorem redraw_pc (f : FrameBuffer) : (s.redraw f).pc = s.pc := rfl
@[simp] theorem redraw_stack (f : FrameBuffer) : (s.redraw f).stack = s.stack := rfl
@[simp] theorem redraw_dtTicks (f : FrameBuffer) : (s.redraw f).dtTicks = s.dtTicks := rfl
@[simp] theorem redraw_stTicks (f : FrameBuffer) : (s.redraw f).stTicks = s.stTicks := rfl
@[simp] theorem redraw_stActive (f : FrameBuffer) : (s.redraw f).stActive = s.stActive := rfl
@[simp] theorem redraw_fb (f : FrameBuffer) : (s.redraw f).fb = f := rfl
@[simp] theorem redraw_dirty (f : FrameBuffer) : (s.redraw f).dirty = true := rfl
@[simp] theorem redraw_keys (f : FrameBuffer) : (s.redraw f).keys = s.keys := rfl
@[simp] theorem redraw_status (f : FrameBuffer) : (s.redraw f).status = s.status := rfl
@[simp] theorem redraw_mem (f : FrameBuffer) : (s.redraw f).mem = s.mem := rfl
@[simp] theorem redraw_cfg (f : FrameBuffer) : (s.redraw f).cfg = s.cfg := rfl
@[simp] theorem redraw_draws (f : FrameBuffer) : (s.redraw f).draws = s.draws := rfl
@[simp] theorem redraw_events (f : FrameBuffer) : (s.redraw f).events = s.events := rfl
@[simp] theorem redraw_inputs (f : FrameBuffer) : (s.redraw f).inputs = s.inputs := rfl
@[simp] theorem redraw_reg (f : FrameBuffer) (q : Reg) : (s.redraw f).reg q = s.reg q := rfl
@[simp] theorem redraw_byteAt (f : FrameBuffer) (q : Nat) : (s.redraw f).byteAt q = s.byteAt q := rfl

@[simp] theorem emit_regs (e : Event) : (s.emit e).regs = s.regs := rfl
@[simp] theorem emit_i (e : Event) : (s.emit e).i = s.i := rfl
@[simp] theorem emit_pc (e : Event) : (s.emit e).pc = s.pc := rfl
@[simp] theorem emit_stack (e : Event) : (s.emit e).stack = s.stack := rfl
@[simp] theorem emit_dtTicks (e : Event) : (s.emit e).dtTicks = s.dtTicks := rfl
@[simp] theorem emit_stTicks (e : Event) : (s.emit e).stTicks = s.stTicks := rfl
@[simp] theorem emit_stActive (e : Event) : (s.emit e).stActive = s.stActive := rfl
@[simp] theorem emit_fb (e : Event) : (s.emit e).fb = s.fb := rfl
@[simp] theorem emit_dirty (e : Event) : (s.emit e).dirty = s.dirty := rfl
@[simp] theorem emit_keys (e : Event) : (s.emit e).keys = s.keys := rfl
@[simp] theorem emit_status (e : Event) : (s.emit e).status = s.status := rfl
@[simp] theorem emit_mem (e : Event) : (s.emit e).mem = s.mem := rfl
@[simp] theorem emit_cfg (e : Event) : (s.emit e).cfg = s.cfg := rfl
@[simp] theorem emit_draws (e : Event) : (s.emit e).draws = s.draws := rfl
@[simp] theorem emit_events (e : Event) : (s.emit e).events = s.events ++ [e] := rfl
@[simp] theorem emit_inputs (e : Event) : (s.emit e).inputs = s.inputs := rfl
@[simp] theorem emit_reg (e : Event) (q : Reg) : (s.emit e).reg q = s.reg q := rfl
@[simp] theorem emit_byteAt (e : Event) (q : Nat) : (s.emit e).byteAt q = s.byteAt q := rfl

@[simp] theorem halt_regs (kd : FatalKind) (w : Option Word) (a : Option Nat) (k : Option Byte) : (s.halt kd w a k).regs = s.regs := rfl
@[simp] theorem halt_i (kd : FatalKind) (w : Option Word) (a : Option Nat) (k : Option Byte) : (s.halt kd w a k).i = s.i := rfl
@[simp] theorem halt_pc (kd : FatalKind) (w : Option Word) (a : Option Nat) (k : Option Byte) : (s.halt kd w a k).pc = s.pc := rfl
@[simp] theorem halt_stack (kd : FatalKind) (w : Option Word) (a : Option Nat) (k : Option Byte) : (s.halt kd w a k).stack = s.stack := rfl
@[simp] theorem halt_dtTicks (kd : FatalKind) (w : Option Word) (a : Option Nat) (k : Option Byte) : (s.halt kd w a k).dtTicks = s.dtTicks := rfl
@[simp] theorem halt_stTicks (kd : FatalKind) (w : Option Word) (a : Option Nat) (k : Option Byte) : (s.halt kd w a k).stTicks = s.stTicks := rfl
@[simp] theorem halt_stActive (kd : FatalKind) (w : Option Word) (a : Option Nat) (k : Option Byte) : (s.halt kd w a k).stActive = s.stActive := rfl
@[simp] theorem halt_fb (kd : FatalKind) (w : Option Word) (a : Option Nat) (k : Option Byte) : (s.halt kd w a k).fb = s.fb := rfl
@[simp] theorem halt_dirty (kd : FatalKind) (w : Option Word) (a : Option Nat) (k : Option Byte) : (s.halt kd w a k).dirty = s.dirty := rfl
@[simp] theorem halt_keys (kd : FatalKind) (w : Option Word) (a : Option Nat) (k : Option Byte) : (s.halt kd w a k).keys = s.keys := rfl
@[simp] theorem halt_status (kd : FatalKind) (w : Option Word) (a : Option Nat) (k : Option Byte) : (s.halt kd w a k).status = .halted ⟨kd, s.pc, w, a, k⟩ := rfl
@[simp] theorem halt_mem (kd : FatalKind) (w : Option Word) (a : Option Nat) (k : Option Byte) : (s.halt kd w a k).mem = s.mem := rfl
@[simp] theorem halt_cfg (kd : FatalKind) (w : Option Word) (a : Option Nat) (k : Option Byte) : (s.halt kd w a k).cfg = s.cfg := rfl
@[simp] theorem halt_draws (kd : FatalKind) (w : Option Word) (a : Option Nat) (k : Option Byte) : (s.halt kd w a k).draws = s.draws := rfl
@[simp] theorem halt_events (kd : FatalKind) (w : Option Word) (a : Option Nat) (k : Option Byte) : (s.halt kd w a k).events = s.events := rfl
@[simp] theorem halt_inputs (kd : FatalKind) (w : Option Word) (a : Option Nat) (k : Option Byte) : (s.halt kd w a k).inputs = s.inputs := rfl
@[simp] theorem halt_reg (kd : FatalKind) (w : Option Word) (a : Option Nat) (k : Option Byte) (q : Reg) : (s.halt kd w a k).reg q = s.reg q := rfl
@[simp] theorem halt_byteAt (kd : FatalKind) (w : Option Word) (a : Option Nat) (k : Option Byte) (q : Nat) : (s.halt kd w a k).byteAt q = s.byteAt q := rfl

@[simp] theorem drawRandom_regs : s.drawRandom.2.regs = s.regs := rfl
@[simp] theorem drawRandom_i : s.drawRandom.2.i = s.i := rfl
@[simp] theorem drawRandom_pc : s.drawRandom.2.pc = s.pc := rfl
@[simp] theorem drawRandom_stack : s.drawRandom.2.stack = s.stack := rfl
@[simp] theorem drawRandom_dtTicks : s.drawRandom.2.dtTicks = s.dtTicks := rfl
@[simp] theorem drawRandom_stTicks : s.drawRandom.2.stTicks = s.stTicks := rfl
@[simp] theorem drawRandom_stActive : s.drawRandom.2.stActive = s.stActive := rfl
@[simp] theorem drawRandom_fb : s.drawRandom.2.fb = s.fb := rfl
@[simp] theorem drawRandom_dirty : s.drawRandom.2.dirty = s.dirty := rfl
@[simp] theorem drawRandom_keys : s.drawRandom.2.keys = s.keys := rfl
@[simp] theorem drawRandom_status : s.drawRandom.2.status = s.status := rfl
@[simp] theorem drawRandom_mem : s.drawRandom.2.mem = s.mem := rfl
@[simp] theorem drawRandom_cfg : s.drawRandom.2.cfg = s.cfg := rfl
@[simp] theorem drawRandom_draws : s.drawRandom.2.draws = s.draws + 1 := rfl
@[simp] theorem drawRandom_events : s.drawRandom.2.events = s.events := rfl
@[simp] theorem drawRandom_inputs : s.drawRandom.2.inputs = s.inputs := rfl
@[simp] theorem drawRandom_reg (q : Reg) : s.drawRandom.2.reg q = s.reg q := rfl
@[simp] theorem drawRandom_byteAt (q : Nat) : s.drawRandom.2.byteAt q = s.byteAt q := rfl
@[simp] theorem drawRandom_fst : s.drawRandom.1 = Config.randByte s.draws := rfl

/-- A register reads the value last written to it; every other register is unchanged. -/
@[simp] theorem setReg_reg (r q : Reg) (v : Byte) : (s.setReg r v).reg q = if q = r then v else s.reg q := by
  unfold State.reg State.setReg
  by_cases h : q = r
  · subst h; simp
  · have : r.val ≠ q.val := fun e => h (Fin.ext e.symm)
    simp [h, Vector.getElem_set_ne, this]

/-- The flag register holds the flag and the destination the result; where they are one register, the flag (R193). -/
theorem setResultFlag_reg (x q : Reg) (p : Byte × Bool) :
    (s.setResultFlag x p).reg q = if q = flagReg then flagByte p.2 else if q = x then p.1 else s.reg q := by
  simp [State.setResultFlag]

/-- A write of a pair changes the general registers alone. -/
theorem setResultFlag_frame (x : Reg) (p : Byte × Bool) :
    s.setResultFlag x p = { s with regs := (s.setResultFlag x p).regs } := rfl

end Sys2Proof.Machine.State
end

