-- ==== Sys2Proof/Laws/Display.lean ====
section
/-!
SUPPORT. The sprite engine, operation by operation (spec/45_display.md R232 to R235): what each pixel is after it, and what
its collision result says.
-/

namespace Sys2Proof.Machine

theorem pixel_off_screen (fb : FrameBuffer) {i j : Nat} (h : ¬(i < 64 ∧ j < 32)) : pixel fb i j = false := by
  unfold pixel
  split_ifs with hj
  · exact BitVec.getLsbD_of_ge _ _ (by omega)
  · rfl

@[simp] theorem pixel_blank (i j : Nat) : pixel blankScreen i j = false := by
  unfold pixel blankScreen
  split_ifs <;> simp

/-- Two framebuffers with the same pixels are the same. -/
theorem frameBuffer_ext {f g : FrameBuffer} (h : ∀ i j, i < 64 → j < 32 → pixel f i j = pixel g i j) : f = g := by
  apply Vector.ext
  intro j hj
  apply BitVec.eq_of_getLsbD_eq
  intro i hi
  have := h i j hi hj
  simpa [pixel, hj] using this

theorem pixel_toggle (fb : FrameBuffer) {x y : Nat} (hx : x < 64) (hy : y < 32) (i j : Nat) :
    pixel (togglePixel fb x y) i j = (pixel fb i j ^^ decide (i = x ∧ j = y)) := by
  unfold pixel togglePixel
  rw [dif_pos hy]
  by_cases hj : j < 32
  · rw [dif_pos hj, dif_pos hj, Vector.getElem_set]
    by_cases hyj : y = j
    · subst hyj
      rw [if_pos rfl, BitVec.getLsbD_xor, BitVec.getLsbD_twoPow]
      congr 1
      by_cases hi : x = i
      · subst hi; simp [hx]
      · simp [hi, Ne.symm hi]
    · rw [if_neg hyj]
      simp [Ne.symm hyj]
  · rw [dif_neg hj, dif_neg hj]
    have : ¬(i = x ∧ j = y) := by omega
    simp [this]

/-- The target of the bit b at (px, py), if it is a 1 bit on the screen. -/
def plotted (px py : Nat) (b : Bool) (i j : Nat) : Bool := decide (i < 64 ∧ j < 32 ∧ i = px ∧ j = py) && b

/-- A sprite bit exclusive-ors its target and no other pixel (R232, R234). -/
theorem pixel_plot (px py : Nat) (b : Bool) (acc : FrameBuffer × Bool) (i j : Nat) :
    pixel (plot px py b acc).1 i j = (pixel acc.1 i j ^^ plotted px py b i j) := by
  unfold plot plotted
  split_ifs with h
  · rw [pixel_toggle _ h.1 h.2.1]
    congr 1
    simp only [h.2.2, Bool.and_true, decide_eq_decide]
    constructor
    · rintro ⟨rfl, rfl⟩; exact ⟨h.1, h.2.1, rfl, rfl⟩
    · exact fun h => h.2.2
  · have : (decide (i < 64 ∧ j < 32 ∧ i = px ∧ j = py) && b) = false := by
      rw [Bool.and_eq_false_iff]
      by_cases hb : b = true
      · left
        rw [decide_eq_false_iff_not]
        rintro ⟨h1, h2, rfl, rfl⟩
        exact h ⟨h1, h2, hb⟩
      · right; simpa using hb
    rw [this, Bool.xor_false]

/-- A sprite bit collides exactly when it erases a lit pixel (R233). -/
theorem collision_plot (px py : Nat) (b : Bool) (acc : FrameBuffer × Bool) :
    (plot px py b acc).2 = true ↔ acc.2 = true ∨ ∃ i j, pixel acc.1 i j = true ∧ plotted px py b i j = true := by
  unfold plot plotted
  split_ifs with h
  · simp only [Bool.or_eq_true, h.2.2, Bool.and_true, decide_eq_true_eq]
    constructor
    · rintro (h' | h')
      · exact .inl h'
      · exact .inr ⟨px, py, h', h.1, h.2.1, rfl, rfl⟩
    · rintro (h' | ⟨i, j, h', -, -, rfl, rfl⟩)
      · exact .inl h'
      · exact .inr h'
  · constructor
    · exact .inl
    · rintro (h' | ⟨i, j, -, h'⟩)
      · exact h'
      · simp only [Bool.and_eq_true, decide_eq_true_eq] at h'
        obtain ⟨⟨h1, h2, rfl, rfl⟩, hb⟩ := h'
        exact absurd ⟨h1, h2, hb⟩ h

/-- What a list of plots covers, each list entry a target with its bit. -/
def coveredBy (ps : List (Nat × Nat × Bool)) (i j : Nat) : Bool := ps.any fun p => plotted p.1 p.2.1 p.2.2 i j

/-- Plots at targets that are all different: each pixel changes at most once, and the collision result says whether a lit
pixel was covered. -/
theorem plots_spec (ps : List (Nat × Nat × Bool)) (hps : ps.Pairwise fun p q => ¬(p.1 = q.1 ∧ p.2.1 = q.2.1))
    (acc : FrameBuffer × Bool) :
    (∀ i j, pixel (ps.foldl (fun a p => plot p.1 p.2.1 p.2.2 a) acc).1 i j = (pixel acc.1 i j ^^ coveredBy ps i j)) ∧
      ((ps.foldl (fun a p => plot p.1 p.2.1 p.2.2 a) acc).2 = true ↔
        acc.2 = true ∨ ∃ i j, pixel acc.1 i j = true ∧ coveredBy ps i j = true) := by
  induction ps generalizing acc with
  | nil => simp [coveredBy]
  | cons p ps ih =>
    obtain ⟨hp, hps⟩ := List.pairwise_cons.1 hps
    obtain ⟨ih1, ih2⟩ := ih hps (plot p.1 p.2.1 p.2.2 acc)
    have apart : ∀ i j, plotted p.1 p.2.1 p.2.2 i j = true → coveredBy ps i j = false := by
      intro i j h
      simp only [plotted, Bool.and_eq_true, decide_eq_true_eq] at h
      rw [coveredBy, List.any_eq_false]
      intro q hq
      simp only [plotted, Bool.and_eq_true, decide_eq_true_eq, not_and, Bool.not_eq_true]
      rintro ⟨-, -, h1, h2⟩
      exact absurd ⟨h.1.2.2.1.symm.trans h1, h.1.2.2.2.symm.trans h2⟩ (hp q hq)
    have split : ∀ i j, coveredBy (p :: ps) i j = (plotted p.1 p.2.1 p.2.2 i j || coveredBy ps i j) := fun _ _ => rfl
    simp only [List.foldl_cons]
    constructor
    · intro i j
      rw [ih1, pixel_plot, split]
      cases h : plotted p.1 p.2.1 p.2.2 i j
      · simp
      · simp [apart i j h]
    · rw [ih2, collision_plot]
      constructor
      · rintro ((h | ⟨i, j, h1, h2⟩) | ⟨i, j, h1, h2⟩)
        · exact .inl h
        · exact .inr ⟨i, j, h1, by simp [split, h2]⟩
        · refine .inr ⟨i, j, ?_, by simp [split, h2]⟩
          rw [pixel_plot] at h1
          cases h : plotted p.1 p.2.1 p.2.2 i j
          · simpa [h] using h1
          · rw [apart i j h] at h2; exact absurd h2 (by simp)
      · rintro (h | ⟨i, j, h1, h2⟩)
        · exact .inl (.inl h)
        · rw [split, Bool.or_eq_true] at h2
          rcases h2 with h2 | h2
          · exact .inl (.inr ⟨i, j, h1, h2⟩)
          · refine .inr ⟨i, j, ?_, h2⟩
            rw [pixel_plot]
            cases h : plotted p.1 p.2.1 p.2.2 i j
            · simpa using h1
            · rw [apart i j h] at h2; exact absurd h2 (by simp)

/-- The targets of one sprite byte with its first bit at (x, py). -/
def rowPlots (x py : Nat) (b : Byte) : List (Nat × Nat × Bool) :=
  (List.range 8).map fun u => (x + u, py, b.getLsbD (7 - u))

/-- The targets of a sprite with its first row at y. -/
def spritePlots (x y : Nat) : List Byte → List (Nat × Nat × Bool)
  | [] => []
  | b :: bs => rowPlots x y b ++ spritePlots x (y + 1) bs

theorem drawRow_eq_plots (x py : Nat) (b : Byte) (acc : FrameBuffer × Bool) :
    drawRow x py b acc = (rowPlots x py b).foldl (fun a p => plot p.1 p.2.1 p.2.2 a) acc := by
  rw [drawRow, rowPlots, List.foldl_map]

theorem drawRows_eq_plots (x y : Nat) (bytes : List Byte) (acc : FrameBuffer × Bool) :
    drawRows x y bytes acc = (spritePlots x y bytes).foldl (fun a p => plot p.1 p.2.1 p.2.2 a) acc := by
  induction bytes generalizing y acc with
  | nil => rfl
  | cons b bs ih => rw [drawRows, ih, spritePlots, List.foldl_append, drawRow_eq_plots]

theorem rowPlots_apart (x py : Nat) (b : Byte) :
    (rowPlots x py b).Pairwise fun p q => ¬(p.1 = q.1 ∧ p.2.1 = q.2.1) := by
  rw [rowPlots, List.pairwise_map]
  exact List.pairwise_lt_range.imp fun h => by rintro ⟨h1, -⟩; omega

theorem spritePlots_row {x y : Nat} {bytes : List Byte} {p : Nat × Nat × Bool} (h : p ∈ spritePlots x y bytes) :
    y ≤ p.2.1 := by
  induction bytes generalizing y with
  | nil => cases h
  | cons b bs ih =>
    rcases List.mem_append.1 h with h | h
    · obtain ⟨u, -, rfl⟩ := List.mem_map.1 h
      exact le_refl y
    · have := ih h; omega

theorem spritePlots_apart (x y : Nat) (bytes : List Byte) :
    (spritePlots x y bytes).Pairwise fun p q => ¬(p.1 = q.1 ∧ p.2.1 = q.2.1) := by
  induction bytes generalizing y with
  | nil => exact List.Pairwise.nil
  | cons b bs ih =>
    refine List.pairwise_append.2 ⟨rowPlots_apart x y b, ih (y + 1), fun p hp q hq => ?_⟩
    obtain ⟨u, -, rfl⟩ := List.mem_map.1 hp
    have := spritePlots_row hq
    rintro ⟨-, h⟩
    simp only at h; omega

theorem coveredBy_append (ps qs : List (Nat × Nat × Bool)) (i j : Nat) :
    coveredBy (ps ++ qs) i j = (coveredBy ps i j || coveredBy qs i j) := by
  simp [coveredBy, List.any_append]

theorem coveredBy_row (x py : Nat) (b : Byte) (i j : Nat) :
    coveredBy (rowPlots x py b) i j = (decide (i < 64 ∧ j < 32) && spriteBit x py [b] i j) := by
  rw [Bool.eq_iff_iff]
  simp only [coveredBy, rowPlots, List.any_map, List.any_eq_true, List.mem_range, Function.comp_apply, plotted,
    Bool.and_eq_true, decide_eq_true_eq, spriteBit]
  constructor
  · rintro ⟨u, hu, ⟨h1, h2, rfl, rfl⟩, hb⟩
    refine ⟨⟨h1, h2⟩, by omega, ?_⟩
    simpa using hb
  · rintro ⟨⟨h1, h2⟩, ⟨h3, h4, h5⟩, hb⟩
    have hj : j = py := by
      by_contra hne
      have : ([b] : List Byte)[j - py]? = none := List.getElem?_eq_none (by simp; omega)
      rw [this] at hb; exact absurd hb (by simp)
    subst hj
    refine ⟨i - x, by omega, ⟨h1, h2, by omega, rfl⟩, ?_⟩
    simpa using hb

/-- The targets of a sprite are the on-screen pixels its 1 bits cover (R232, R234). -/
theorem coveredBy_sprite (x y : Nat) (bytes : List Byte) (i j : Nat) :
    coveredBy (spritePlots x y bytes) i j = (decide (i < 64 ∧ j < 32) && spriteBit x y bytes i j) := by
  induction bytes generalizing y with
  | nil => simp [spritePlots, coveredBy, spriteBit]
  | cons b bs ih =>
    rw [spritePlots, coveredBy_append, coveredBy_row, ih, ← Bool.and_or_distrib_left]
    congr 1
    unfold spriteBit
    by_cases h : y ≤ j
    · by_cases hj : j = y
      · subst hj
        have : ¬(j + 1 ≤ j) := by omega
        simp [this]
      · have h1 : y + 1 ≤ j := by omega
        have h2 : j - y = (j - (y + 1)) + 1 := by omega
        have h3 : ([b] : List Byte)[j - y]? = none := List.getElem?_eq_none (by simp; omega)
        simp [h, h1, h2]
    · have h1 : ¬(y + 1 ≤ j) := by omega
      simp [h, h1]

/-- Every pixel after a draw: the one before, exclusive-or the sprite's bit there (R232, R234). -/
theorem pixel_draw (x y : Nat) (bytes : List Byte) (fb : FrameBuffer) {i j : Nat} (hi : i < 64) (hj : j < 32) :
    pixel (draw x y bytes fb).1 i j = (pixel fb i j ^^ spriteBit x y bytes i j) := by
  rw [draw, drawRows_eq_plots, (plots_spec _ (spritePlots_apart x y bytes) _).1, coveredBy_sprite]
  simp [hi, hj]

/-- The collision result of a draw: a lit pixel of the screen lies under a 1 bit of the sprite (R233). -/
theorem collision_draw (x y : Nat) (bytes : List Byte) (fb : FrameBuffer) :
    (draw x y bytes fb).2 = true ↔
      ∃ i j, i < 64 ∧ j < 32 ∧ pixel fb i j = true ∧ spriteBit x y bytes i j = true := by
  rw [draw, drawRows_eq_plots, (plots_spec _ (spritePlots_apart x y bytes) _).2]
  simp only [Bool.false_eq_true, false_or, coveredBy_sprite, Bool.and_eq_true, decide_eq_true_eq]
  constructor
  · rintro ⟨i, j, h1, ⟨h2, h3⟩, h4⟩; exact ⟨i, j, h2, h3, h1, h4⟩
  · rintro ⟨i, j, h2, h3, h1, h4⟩; exact ⟨i, j, h1, ⟨h2, h3⟩, h4⟩

end Sys2Proof.Machine
end

