-- ==== Sys2Proof/Laws/Memory.lean ====
section
/-!
SUPPORT. The memory laws (spec/20_memory.md R61, R62, R72): a read gives the byte last written, a write leaves every
other address alone, and every memory operation keeps the canonical form.
-/

namespace Sys2Proof.Machine

variable (c : Config)

theorem Memory.read_insert (a b : Nat) (v : Byte) (m : Memory) :
    Memory.read c (Memory.insert a v m) b = if b = a then v else Memory.read c m b := by
  induction m with
  | nil => rfl
  | cons cell m ih =>
    obtain ⟨k, w⟩ := cell
    simp only [Memory.insert]
    split_ifs with h1 h2 h3 h4 h5
    all_goals simp_all [Memory.read]

theorem Memory.read_erase (a b : Nat) (m : Memory) :
    Memory.read c (Memory.erase a m) b = if b = a then Memory.background c a else Memory.read c m b := by
  induction m with
  | nil => simp [Memory.erase, Memory.read]; rintro rfl; rfl
  | cons cell m ih =>
    obtain ⟨k, w⟩ := cell
    by_cases h : k = a
    · subst h
      have : Memory.erase k ((k, w) :: m) = Memory.erase k m := by simp [Memory.erase]
      rw [this, ih]
      by_cases hb : b = k <;> simp [hb, Memory.read]
    · have : Memory.erase a ((k, w) :: m) = (k, w) :: Memory.erase a m := by simp [Memory.erase, h]
      rw [this]
      by_cases hb : b = k
      · subst hb; simp [Memory.read, h]
      · simp [Memory.read, hb, ih]

/-- Read after write, at every pair of addresses. -/
theorem Memory.read_write (m : Memory) (a b : Nat) (v : Byte) :
    Memory.read c (Memory.write c m a v) b = if b = a then v else Memory.read c m b := by
  unfold Memory.write
  split
  · next h => rw [Memory.read_erase, ← h]
  · exact Memory.read_insert c a b v m

theorem Memory.mem_insert {a : Nat} {v : Byte} {m : Memory} {p : Host.Cell} (h : p ∈ Memory.insert a v m) :
    p = (a, v) ∨ p ∈ m := by
  induction m with
  | nil => simpa [Memory.insert] using h
  | cons cell m ih =>
    obtain ⟨k, w⟩ := cell
    simp only [Memory.insert] at h
    split_ifs at h with h1 h2
    · simpa using h
    · simp only [List.mem_cons] at h ⊢; tauto
    · simp only [List.mem_cons] at h ⊢
      rcases h with h | h
      · exact .inr (.inl h)
      · rcases ih h with h | h
        · exact .inl h
        · exact .inr (.inr h)

theorem Memory.insert_rising {a : Nat} {v : Byte} {m : Memory} (h : m.Pairwise fun p q => p.1 < q.1) :
    (Memory.insert a v m).Pairwise fun p q => p.1 < q.1 := by
  induction m with
  | nil => simp [Memory.insert]
  | cons cell m ih =>
    obtain ⟨k, w⟩ := cell
    obtain ⟨hk, hm⟩ := List.pairwise_cons.1 h
    simp only [Memory.insert]
    split_ifs with h1 h2
    · refine List.pairwise_cons.2 ⟨fun q hq => ?_, h⟩
      rcases List.mem_cons.1 hq with rfl | hq
      · exact h1
      · exact lt_trans h1 (hk q hq)
    · subst h2; exact List.pairwise_cons.2 ⟨hk, hm⟩
    · refine List.pairwise_cons.2 ⟨fun q hq => ?_, ih hm⟩
      rcases Memory.mem_insert hq with rfl | hq
      · show k < a; omega
      · exact hk q hq

/-- A write inside the address space keeps the canonical form. -/
theorem Memory.write_wf {m : Memory} {a : Nat} {v : Byte} (hm : Memory.wf c m) (ha : a < memSize) :
    Memory.wf c (Memory.write c m a v) := by
  obtain ⟨hr, hc⟩ := hm
  unfold Memory.write
  split
  · exact ⟨hr.filter _, fun p hp => hc p (List.mem_of_mem_filter hp)⟩
  · next hv =>
    refine ⟨Memory.insert_rising hr, fun p hp => ?_⟩
    rcases Memory.mem_insert hp with rfl | hp
    · exact ⟨ha, hv⟩
    · exact hc p hp

theorem Memory.nil_wf : Memory.wf c [] := ⟨List.Pairwise.nil, by simp⟩

/-- A memory in canonical form is determined by what its bytes read as. -/
theorem Memory.ext_of_read {m n : Memory} (hm : Memory.wf c m) (hn : Memory.wf c n)
    (h : ∀ a, Memory.read c m a = Memory.read c n a) : m = n := by
  have listed : ∀ {m : Memory}, Memory.wf c m → ∀ p ∈ m, Memory.read c m p.1 = p.2 := by
    intro m hm p hp
    induction m with
    | nil => cases hp
    | cons cell m ih =>
      obtain ⟨hr, hc⟩ := hm
      obtain ⟨hk, hr⟩ := List.pairwise_cons.1 hr
      rcases List.mem_cons.1 hp with rfl | hp
      · simp [Memory.read]
      · have := hk p hp
        have hne : p.1 ≠ cell.1 := by omega
        simp only [Memory.read, hne, if_false]
        exact ih ⟨hr, fun q hq => hc q (List.mem_cons_of_mem _ hq)⟩ hp
  have unlisted : ∀ {m : Memory} {a : Nat}, (∀ p ∈ m, p.1 ≠ a) → Memory.read c m a = Memory.background c a := by
    intro m a hno
    induction m with
    | nil => rfl
    | cons cell m ih =>
      have h1 : a ≠ cell.1 := (hno cell (by simp)).symm
      simp only [Memory.read, h1, if_false]
      exact ih fun p hp => hno p (List.mem_cons_of_mem _ hp)
  have sub : ∀ {m n : Memory}, Memory.wf c m → Memory.wf c n → (∀ a, Memory.read c m a = Memory.read c n a) →
      ∀ p ∈ m, p ∈ n := by
    intro m n hm hn h p hp
    by_contra hno
    have h1 := listed hm p hp
    have hb := (hm.2 p hp).2
    by_cases hq : ∃ q ∈ n, q.1 = p.1
    · obtain ⟨q, hq, he⟩ := hq
      have h2 := listed hn q hq
      have : q = p := Prod.ext he (by rw [← h2, ← h1, he, h])
      exact hno (this ▸ hq)
    · push Not at hq
      exact hb (by rw [← h1, h, unlisted hq])
  have nodup : ∀ {m : Memory}, Memory.wf c m → m.Nodup := fun hm =>
    hm.1.imp fun hlt => by rintro rfl; exact absurd hlt (lt_irrefl _)
  have perm : m.Perm n := (List.perm_ext_iff_of_nodup (nodup hm) (nodup hn)).2 fun p =>
    ⟨sub hm hn h p, sub hn hm (fun a => (h a).symm) p⟩
  exact perm.eq_of_pairwise (fun a b _ _ hab hba => absurd (lt_trans hab hba) (lt_irrefl _)) hm.1 hn.1

variable (s : State)

/-- `MEM[a] <- v` writes that byte and no other. -/
@[simp] theorem State.setByte_byteAt (a b : Nat) (v : Byte) :
    (s.setByte a v).byteAt b = if b = a then v else s.byteAt b := Memory.read_write _ _ _ _ _

/-- Each byte of the image is at its place, and every other address is untouched (R341). -/
theorem Memory.read_placeRom (base : Nat) (rom : List Byte) (m : Memory) (a : Nat) :
    Memory.read c (Memory.placeRom c base rom m) a =
      if h : base ≤ a ∧ a < base + rom.length then rom[a - base]'(by omega) else Memory.read c m a := by
  induction rom generalizing base m with
  | nil =>
    have : ¬(base ≤ a ∧ a < base + ([] : List Byte).length) := by simp
    simp only [Memory.placeRom, this, dite_false]
  | cons b bs ih =>
    simp only [Memory.placeRom, ih, Memory.read_write, List.length_cons]
    by_cases h0 : a = base
    · subst h0
      simp
    · by_cases h1 : base + 1 ≤ a ∧ a < base + 1 + bs.length
      · have h2 : base ≤ a ∧ a < base + (bs.length + 1) := by omega
        have h3 : a - base = (a - (base + 1)) + 1 := by omega
        simp only [h1, h2, and_self, dite_true, h3, List.getElem_cons_succ]
      · have h2 : ¬(base ≤ a ∧ a < base + (bs.length + 1)) := by omega
        simp only [h1, h2, dite_false, h0, if_false]

/-- An image inside the address space keeps the canonical form. -/
theorem Memory.placeRom_wf {base : Nat} {rom : List Byte} {m : Memory} (hm : Memory.wf c m)
    (h : base + rom.length ≤ memSize) : Memory.wf c (Memory.placeRom c base rom m) := by
  induction rom generalizing base m with
  | nil => exact hm
  | cons b bs ih =>
    simp only [List.length_cons] at h
    exact ih (Memory.write_wf c hm (by omega)) (by omega)

end Sys2Proof.Machine
end

