-- ==== Sys2Proof/Laws/Ops.lean ====
section
/-!
SUPPORT. One specification lemma per shared operation: everything it can do, said once.
-/

namespace Sys2Proof.Machine

variable (s : State)

/-! Byte accesses (R61 to R63). -/

theorem State.memRead_ok {a : Nat} (h : a < memSize) : s.memRead a = .ok (s.byteAt a) := if_pos h

theorem State.memRead_error {a : Nat} (h : memSize ≤ a) : s.memRead a = .error a := if_neg (Nat.not_lt.2 h)

theorem State.memWrite_ok {a : Nat} (v : Byte) (h : a < memSize) : s.memWrite a v = .ok (s.setByte a v) := if_pos h

theorem State.memWrite_error {a : Nat} (v : Byte) (h : memSize ≤ a) : s.memWrite a v = .error a :=
  if_neg (Nat.not_lt.2 h)

theorem State.fetch_ok (h : s.pc.toNat + 1 < memSize) :
    s.fetch = .ok (joinBytes (s.byteAt s.pc.toNat) (s.byteAt (s.pc.toNat + 1))) := by
  simp only [State.fetch, s.memRead_ok (show s.pc.toNat < memSize by omega), s.memRead_ok h]

/-- A fetch that reaches past the memory fails at its first index of 4096 or more (R63). -/
theorem State.fetch_error (h : memSize ≤ s.pc.toNat + 1) : s.fetch = .error (max s.pc.toNat memSize) := by
  unfold State.fetch
  by_cases h1 : s.pc.toNat < memSize
  · rw [s.memRead_ok h1, s.memRead_error h]
    simp only
    congr 1
    omega
  · rw [s.memRead_error (by omega)]
    simp only
    congr 1
    omega

/-! Sequences of bytes (R69, R70). -/

theorem State.readBytes_ok {a n : Nat} (h : n = 0 ∨ a + n ≤ memSize) : s.readBytes a n = .ok (bytesFrom s a n) := by
  induction n generalizing a with
  | zero => rfl
  | succ n ih =>
    have h' : a + (n + 1) ≤ memSize := by omega
    have hb : bytesFrom s a (n + 1) = s.byteAt a :: bytesFrom s (a + 1) n := by
      simp [bytesFrom, List.range_succ_eq_map, Function.comp_def, Nat.add_assoc, Nat.add_comm 1]
    simp only [State.readBytes, s.memRead_ok (show a < memSize by omega), ih (a := a + 1) (by omega), hb]

theorem State.readBytes_error {a n : Nat} (h : memSize < a + n) (hn : 0 < n) :
    s.readBytes a n = .error (max a memSize) := by
  induction n generalizing a with
  | zero => omega
  | succ n ih =>
    by_cases ha : a < memSize
    · have hn' : 0 < n := by omega
      simp only [State.readBytes, s.memRead_ok ha, ih (a := a + 1) (by omega) hn']
      congr 1; omega
    · simp only [State.readBytes, s.memRead_error (show memSize ≤ a by omega)]
      congr 1; omega

/-- Storing bytes changes memory alone. -/
theorem State.storeBytes_frame (a : Nat) (bs : List Byte) :
    (s.storeBytes a bs).1 = { s with mem := (s.storeBytes a bs).1.mem } := by
  induction bs generalizing s a with
  | nil => rfl
  | cons b bs ih =>
    by_cases h : a < memSize
    · simp only [State.storeBytes, s.memWrite_ok b h]
      exact ih (s.setByte a b) (a + 1)
    · simp only [State.storeBytes, s.memWrite_error b (show memSize ≤ a by omega)]

/-- The bytes stored are those below 4096; every other byte is as before. -/
theorem State.storeBytes_byteAt (a : Nat) (bs : List Byte) (q : Nat) :
    (s.storeBytes a bs).1.byteAt q =
      if h : a ≤ q ∧ q < a + bs.length ∧ q < memSize then bs[q - a]'(by omega) else s.byteAt q := by
  induction bs generalizing s a with
  | nil =>
    have : ¬(a ≤ q ∧ q < a + ([] : List Byte).length ∧ q < memSize) := by simp; omega
    simp only [State.storeBytes, this, dite_false]
  | cons b bs ih =>
    by_cases h : a < memSize
    · simp only [State.storeBytes, s.memWrite_ok b h, ih, State.setByte_byteAt, List.length_cons]
      by_cases h0 : q = a
      · subst h0; simp [h]
      · by_cases h1 : a + 1 ≤ q ∧ q < a + 1 + bs.length ∧ q < memSize
        · have h2 : a ≤ q ∧ q < a + (bs.length + 1) ∧ q < memSize := by omega
          have h3 : q - a = (q - (a + 1)) + 1 := by omega
          simp only [h1, h2, and_self, dite_true, h3, List.getElem_cons_succ]
        · have h2 : ¬(a ≤ q ∧ q < a + (bs.length + 1) ∧ q < memSize) := by omega
          simp only [h1, h2, dite_false, h0, if_false]
    · have h2 : ¬(a ≤ q ∧ q < a + (b :: bs).length ∧ q < memSize) := by omega
      simp only [State.storeBytes, s.memWrite_error b (show memSize ≤ a by omega), h2, dite_false]

/-- Storing fails exactly where the bytes reach past the memory, at the first index of 4096 or more. -/
theorem State.storeBytes_snd (a : Nat) (bs : List Byte) :
    (s.storeBytes a bs).2 = if bs = [] ∨ a + bs.length ≤ memSize then none else some (max a memSize) := by
  induction bs generalizing s a with
  | nil => simp [State.storeBytes]
  | cons b bs ih =>
    by_cases h : a < memSize
    · simp only [State.storeBytes, s.memWrite_ok b h, ih, List.length_cons, reduceCtorEq, false_or]
      by_cases hb : bs = []
      · subst hb
        have : a + 1 ≤ memSize := h
        simp [this]
      · have hmax : max (a + 1) memSize = max a memSize := by omega
        simp only [hb, false_or, hmax, Nat.add_comm bs.length 1, Nat.add_assoc]
    · have h2 : ¬(a + (bs.length + 1) ≤ memSize) := by omega
      simp only [State.storeBytes, s.memWrite_error b (show memSize ≤ a by omega), List.length_cons, reduceCtorEq,
        false_or, h2, if_false]
      congr 1; omega

/-- Storing bytes keeps memory canonical. -/
theorem State.storeBytes_wf (a : Nat) (bs : List Byte) (h : memoryCanonical s) :
    memoryCanonical (s.storeBytes a bs).1 := by
  induction bs generalizing s a with
  | nil => exact h
  | cons b bs ih =>
    by_cases ha : a < memSize
    · simp only [State.storeBytes, s.memWrite_ok b ha]
      exact ih _ _ (Memory.write_wf s.cfg h ha)
    · simpa only [State.storeBytes, s.memWrite_error b (show memSize ≤ a by omega)] using h

/-- Loading registers changes general registers alone. -/
theorem State.loadRegs_frame (base : Nat) (rs : List Reg) :
    (s.loadRegs base rs).1 = { s with regs := (s.loadRegs base rs).1.regs } := by
  induction rs generalizing s with
  | nil => rfl
  | cons r rs ih =>
    by_cases h : base + r.val < memSize
    · simp only [State.loadRegs, s.memRead_ok h]
      exact ih (s.setReg r _)
    · simp only [State.loadRegs, s.memRead_error (show memSize ≤ base + r.val by omega)]

/-- With the registers in increasing order, those whose byte is inside the memory are loaded. -/
theorem State.loadRegs_reg (base : Nat) (rs : List Reg) (hrs : rs.Pairwise (· < ·)) (q : Reg) :
    (s.loadRegs base rs).1.reg q =
      if q ∈ rs ∧ base + q.val < memSize then s.byteAt (base + q.val) else s.reg q := by
  induction rs generalizing s with
  | nil => simp [State.loadRegs]
  | cons r rs ih =>
    obtain ⟨hr, hrs⟩ := List.pairwise_cons.1 hrs
    by_cases h : base + r.val < memSize
    · simp only [State.loadRegs, s.memRead_ok h, ih _ hrs, State.setReg_byteAt, State.setReg_reg, List.mem_cons]
      by_cases hq : q = r
      · subst hq
        have : q ∉ rs := fun hm => absurd (hr q hm) (lt_irrefl _)
        simp [this, h]
      · simp [hq]
    · have : ¬(q ∈ r :: rs ∧ base + q.val < memSize) := by
        rintro ⟨hm, hlt⟩
        rcases List.mem_cons.1 hm with rfl | hm
        · exact h hlt
        · have := Fin.lt_def.1 (hr q hm); omega
      simp only [State.loadRegs, s.memRead_error (show memSize ≤ base + r.val by omega), this, if_false]

/-! Register ranges (R92). -/

theorem mem_regRange : ∀ x r : Reg, r ∈ regRange x ↔ r ≤ x := by decide

theorem regRange_rising : ∀ x : Reg, (regRange x).Pairwise (· < ·) := by decide

theorem regRange_length (x : Reg) : (regRange x).length = x.val + 1 := by
  have := x.isLt
  simp only [regRange, List.length_take, List.length_finRange]; omega

theorem regRange_getElem (x : Reg) (k : Nat) (h : k < (regRange x).length) :
    (regRange x)[k] = ⟨k, by rw [regRange_length] at h; omega⟩ := by
  simp [regRange]

/-- Loading V0..VX fails exactly where the bytes reach past the memory, at the first index of 4096 or more. -/
theorem State.loadRegs_snd (base : Nat) (rs : List Reg) :
    (s.loadRegs base rs).2 = (rs.find? fun r => decide (memSize ≤ base + r.val)).map fun r => base + r.val := by
  induction rs generalizing s with
  | nil => rfl
  | cons r rs ih =>
    by_cases h : base + r.val < memSize
    · simp only [State.loadRegs, s.memRead_ok h, ih]
      rw [List.find?_cons_of_neg]; simpa using h
    · simp only [State.loadRegs, s.memRead_error (show memSize ≤ base + r.val by omega)]
      rw [List.find?_cons_of_pos (by simpa using h)]; rfl

theorem regRange_firstOut (x : Reg) (base : Nat) :
    ((regRange x).find? fun r => decide (memSize ≤ base + r.val)).map (fun r => base + r.val) =
      if base + (x.val + 1) ≤ memSize then none else some (max base memSize) := by
  by_cases h : base + (x.val + 1) ≤ memSize
  · rw [if_pos h, Option.map_eq_none_iff, List.find?_eq_none]
    intro r hr
    have := Fin.le_def.1 ((mem_regRange x r).1 hr)
    simp; omega
  · rw [if_neg h]
    cases hf : (regRange x).find? fun r => decide (memSize ≤ base + r.val) with
    | none =>
      rw [List.find?_eq_none] at hf
      have := hf x ((mem_regRange x x).2 (le_refl x))
      simp at this; omega
    | some r =>
      obtain ⟨hp, as, bs, hl, hbefore⟩ := List.find?_eq_some_iff_append.1 hf
      simp only [decide_eq_true_eq] at hp
      simp only [Option.map_some, Option.some.injEq]
      by_cases hb : memSize ≤ base
      · have h0 : (0 : Reg) ∈ regRange x := (mem_regRange x 0).2 (Fin.zero_le x)
        have : r.val = 0 := by
          by_contra hne
          rw [hl] at h0
          rcases List.mem_append.1 h0 with h0 | h0
          · have := hbefore 0 h0; simp at this; omega
          · rcases List.mem_cons.1 h0 with h0 | h0
            · exact hne (by rw [← h0]; rfl)
            · have hpw := regRange_rising x
              rw [hl] at hpw
              have := (List.pairwise_cons.1 (List.pairwise_append.1 hpw).2.1).1 0 h0
              exact absurd this (by simp)
        omega
      · have hr : r ∈ regRange x := by rw [hl]; simp
        have hrx := Fin.le_def.1 ((mem_regRange x r).1 hr)
        by_contra hne
        have hlt : 0 < r.val ∧ memSize ≤ base + (r.val - 1) := by omega
        let p : Reg := ⟨r.val - 1, by omega⟩
        have hpr : p ∈ regRange x := (mem_regRange x p).2 (Fin.le_def.2 (by show r.val - 1 ≤ _; omega))
        have hpw := regRange_rising x
        rw [hl] at hpr hpw
        rcases List.mem_append.1 hpr with h1 | h1
        · have := hbefore p h1
          simp only [Bool.not_eq_true', decide_eq_false_iff_not] at this
          exact this hlt.2
        · rcases List.mem_cons.1 h1 with h1 | h1
          · have := congrArg Fin.val h1
            simp only [p] at this; omega
          · have := (List.pairwise_cons.1 (List.pairwise_append.1 hpw).2.1).1 p h1
            have := Fin.lt_def.1 this
            simp only [p] at this; omega

/-- Loading V0..VX: each register up to VX whose byte is inside the memory (R215). -/
theorem State.loadRange_reg (base : Nat) (x q : Reg) :
    (s.loadRegs base (regRange x)).1.reg q =
      if q ≤ x ∧ base + q.val < memSize then s.byteAt (base + q.val) else s.reg q := by
  rw [State.loadRegs_reg _ _ _ (regRange_rising x)]
  simp only [mem_regRange]

/-- The bytes FX55 stores. -/
theorem regBytes_length (x : Reg) : ((regRange x).map s.reg).length = x.val + 1 := by
  rw [List.length_map, regRange_length]

theorem regBytes_getElem (x : Reg) (k : Nat) (h : k < ((regRange x).map s.reg).length) :
    ((regRange x).map s.reg)[k] = s.reg ⟨k, by rw [regBytes_length] at h; omega⟩ := by
  rw [List.getElem_map, regRange_getElem]

/-- Storing V0..VX: the byte at base + k is Vk for each k up to X inside the memory (R214). -/
theorem State.storeRange_byteAt (base : Nat) (x : Reg) (q : Nat) :
    (s.storeBytes base ((regRange x).map s.reg)).1.byteAt q =
      if h : base ≤ q ∧ q < base + (x.val + 1) ∧ q < memSize
      then s.reg ⟨q - base, by have := x.isLt; omega⟩ else s.byteAt q := by
  rw [State.storeBytes_byteAt]
  simp only [regBytes_length]
  split_ifs with h
  · rw [regBytes_getElem]
  · rfl

/-! The stack (R145, R146). -/

theorem State.push_eq (v : Word) (h : s.cfg.stackCapacity ≠ some s.stack.length) :
    s.push v = some { s with stack := v :: s.stack } := if_neg h

theorem State.push_full (v : Word) (h : s.cfg.stackCapacity = some s.stack.length) : s.push v = none := if_pos h

/-- A call answers the target with PC + 2 pushed, or the overflow. -/
theorem callTo_eq (w : Word) (nnn : Addr12) :
    callTo w nnn s =
      if s.cfg.stackCapacity = some s.stack.length then raise s w .stackOverflow
      else .next { s with stack := (s.pc + 2) :: s.stack, pc := zextAddr nnn } := by
  unfold callTo State.push
  split_ifs <;> rfl

/-- A memory instruction ends in the plain advance or in MEM_OUT_OF_BOUNDS. -/
theorem finishAccess_eq (w : Word) (p : State × Option Nat) :
    finishAccess w p = .next (match p.2 with
      | none => p.1.advance
      | some a => p.1.halt .memOutOfBounds (some w) (some a) none) := by
  obtain ⟨t, _ | a⟩ := p <;> rfl

/-! Operands. -/

theorem zextAddr_toNat (nnn : Addr12) : (zextAddr nnn).toNat = nnn.toNat := by
  have := nnn.isLt
  simp only [zextAddr, BitVec.truncate_eq_setWidth, BitVec.toNat_setWidth]; omega

theorem keyIndex_none {v : Byte} : keyIndex v = none ↔ 16 ≤ v.toNat := by
  unfold keyIndex; split_ifs with h <;> simp <;> omega

theorem keyIndex_some {v : Byte} {k : Fin 16} : keyIndex v = some k ↔ v.toNat = k.val := by
  unfold keyIndex
  split_ifs with h
  · simp [Fin.ext_iff]
  · simp; intro e; have := k.isLt; omega

/-- FX0A's key is a key that is down, and no lower one is. -/
theorem State.firstKey_some {k : Fin 16} (h : s.firstKey = some k) :
    s.keyDown k = true ∧ ∀ j, j < k → s.keyDown j = false := by
  obtain ⟨hk, as, bs, hl, hbefore⟩ := List.find?_eq_some_iff_append.1 h
  refine ⟨by simpa using hk, fun j hj => ?_⟩
  have hpw : (List.finRange 16).Pairwise (· < ·) := by decide
  have hm : j ∈ List.finRange 16 := List.mem_finRange j
  rw [hl] at hm hpw
  rcases List.mem_append.1 hm with h1 | h1
  · simpa using hbefore j h1
  · rcases List.mem_cons.1 h1 with h1 | h1
    · subst h1; exact absurd hj (lt_irrefl _)
    · have := (List.pairwise_cons.1 (List.pairwise_append.1 hpw).2.1).1 j h1
      exact absurd (lt_trans this hj) (lt_irrefl _)

theorem State.firstKey_none : s.firstKey = none ↔ ∀ k, s.keyDown k = false := by
  simp [State.firstKey, List.find?_eq_none]

/-! Reset with a ROM (R340, R342). -/

theorem State.boot_some {rom : List Byte} (h : 0 < rom.length ∧ rom.length ≤ 3584) :
    s.boot rom = some { State.reset with
      mem := Memory.placeRom s.cfg romBase rom [], cfg := s.cfg, draws := s.draws, events := s.events,
      inputs := s.inputs } := if_neg (by unfold maxRom; omega)

theorem State.boot_none {rom : List Byte} : s.boot rom = none ↔ rom.length = 0 ∨ 3584 < rom.length := by
  unfold State.boot maxRom
  split_ifs with h
  · exact iff_of_true rfl h
  · exact iff_of_false (by simp) h

end Sys2Proof.Machine
end

