-- ==== Sys2Proof/Laws/Exec.lean ====
section
/-!
SUPPORT. One equation for each meaning whose answer depends on the state: the completion and the raise, each a state
written with the shared operations. The other meanings are one update, true by definition.
-/

namespace Sys2Proof.Machine

variable (s : State)

/-- `raise` answers the halted state. -/
theorem raise_eq (w : Word) (kind : FatalKind) (addr : Option Nat) (key : Option Byte) :
    raise s w kind addr key = .next (s.halt kind (some w) addr key) := rfl

theorem execRet_nil (h : s.stack = []) : execRet s = .next (s.halt .stackUnderflow (some 0x00EE) none none) := by
  simp only [execRet, State.pop, h]; rfl

theorem execRet_cons {v : Word} {rest : List Word} (h : s.stack = v :: rest) :
    execRet s = .next { s with stack := rest, pc := v } := by
  simp only [execRet, State.pop, h]; rfl

theorem execSys_eq (nnn : Addr12) : execSys nnn s =
    .next (if s.cfg.stackCapacity = some s.stack.length then s.halt .stackOverflow (some (encode (.sys nnn))) none none
      else { s with stack := (s.pc + 2) :: s.stack, pc := zextAddr nnn }) := by
  rw [execSys, callTo_eq]; split_ifs <;> rfl

theorem execCall_eq (nnn : Addr12) : execCall nnn s =
    .next (if s.cfg.stackCapacity = some s.stack.length then s.halt .stackOverflow (some (encode (.call nnn))) none none
      else { s with stack := (s.pc + 2) :: s.stack, pc := zextAddr nnn }) := by
  rw [execCall, callTo_eq]; split_ifs <;> rfl

theorem skipOnKey_eq (w : Word) (x : Reg) (level : Bool) : skipOnKey w x level s =
    .next (if 16 ≤ (s.reg x).toNat then s.halt .keyIndexOutOfRange (some w) none (some (s.reg x))
      else s.skipIf (s.keys.getLsbD (s.reg x).toNat == level)) := by
  unfold skipOnKey
  cases h : keyIndex (s.reg x) with
  | none => rw [if_pos (keyIndex_none.1 h)]; rfl
  | some k =>
    have hk := keyIndex_some.1 h
    have := k.isLt
    rw [if_neg (by omega), hk]; rfl

theorem execAddIVx_eq (x : Reg) : execAddIVx x s =
    .next (if 0xFFFF < s.i.toNat + (s.reg x).toNat ∧ s.cfg.iOverflow = .fatal
      then s.halt .iOverflowFault (some (encode (.addIVx x))) none none
      else (s.setI (BitVec.ofNat 16 (s.i.toNat + (s.reg x).toNat))).advance) := by
  unfold execAddIVx; split_ifs <;> simp_all [raise]

theorem bcdDigits_length (v : Byte) : (bcdDigits v).length = 3 := rfl

theorem execLdBVx_eq (x : Reg) : execLdBVx x s =
    .next (if s.effAddr 2 < memSize then (s.storeBytes (s.effAddr 0) (bcdDigits (s.reg x))).1.advance
      else (s.storeBytes (s.effAddr 0) (bcdDigits (s.reg x))).1.halt .memOutOfBounds (some (encode (.ldBVx x)))
        (some (max s.i.toNat memSize)) none) := by
  rw [execLdBVx, finishAccess_eq, State.storeBytes_snd, bcdDigits_length]
  have hne : bcdDigits (s.reg x) ≠ [] := by simp [bcdDigits]
  by_cases h : s.effAddr 2 < memSize
  · have h' : s.effAddr 0 + 3 ≤ memSize := by unfold State.effAddr at *; omega
    simp only [h, h', hne, or_true, if_true]
  · have h' : ¬(s.effAddr 0 + 3 ≤ memSize) := by unfold State.effAddr at *; omega
    simp only [h, h', hne, or_self, if_false]
    rfl

theorem execLdMemVx_eq (x : Reg) : execLdMemVx x s =
    .next (if s.effAddr x.val < memSize then (s.storeBytes (s.effAddr 0) ((regRange x).map s.reg)).1.advance
      else (s.storeBytes (s.effAddr 0) ((regRange x).map s.reg)).1.halt .memOutOfBounds (some (encode (.ldMemVx x)))
        (some (max s.i.toNat memSize)) none) := by
  rw [execLdMemVx, finishAccess_eq, State.storeBytes_snd, regBytes_length]
  have hne : (regRange x).map s.reg ≠ [] := by
    intro h; have := congrArg List.length h; rw [regBytes_length] at this; simp at this
  by_cases h : s.effAddr x.val < memSize
  · have h' : s.effAddr 0 + (x.val + 1) ≤ memSize := by unfold State.effAddr at *; omega
    simp only [h, h', hne, or_true, if_true]
  · have h' : ¬(s.effAddr 0 + (x.val + 1) ≤ memSize) := by unfold State.effAddr at *; omega
    simp only [h, h', hne, or_self, if_false]
    rfl

theorem execLdVxMem_eq (x : Reg) : execLdVxMem x s =
    .next (if s.effAddr x.val < memSize then (s.loadRegs (s.effAddr 0) (regRange x)).1.advance
      else (s.loadRegs (s.effAddr 0) (regRange x)).1.halt .memOutOfBounds (some (encode (.ldVxMem x)))
        (some (max s.i.toNat memSize)) none) := by
  rw [execLdVxMem, finishAccess_eq, State.loadRegs_snd, regRange_firstOut]
  by_cases h : s.effAddr x.val < memSize
  · have h' : s.effAddr 0 + (x.val + 1) ≤ memSize := by unfold State.effAddr at *; omega
    simp only [h, h', if_true]
  · have h' : ¬(s.effAddr 0 + (x.val + 1) ≤ memSize) := by unfold State.effAddr at *; omega
    simp only [h, h', if_false]
    rfl

/-- A draw whose bytes are inside the memory. -/
theorem execDrw_ok {x y : Reg} {n : Fin 16} (h : n.val = 0 ∨ s.effAddr n.val ≤ memSize) : execDrw x y n s =
    .next ((s.redraw (draw (s.reg x).toNat (s.reg y).toNat (bytesFrom s (s.effAddr 0) n.val) s.fb).1).setReg flagReg
      (flagByte (draw (s.reg x).toNat (s.reg y).toNat (bytesFrom s (s.effAddr 0) n.val) s.fb).2)).advance := by
  have h' : n.val = 0 ∨ s.effAddr 0 + n.val ≤ memSize := by unfold State.effAddr at *; omega
  simp only [execDrw, s.readBytes_ok h']

/-- A draw whose bytes reach past the memory. -/
theorem execDrw_error {x y : Reg} {n : Fin 16} (hn : 0 < n.val) (h : memSize < s.effAddr n.val) : execDrw x y n s =
    .next (s.halt .memOutOfBounds (some (encode (.drw x y n))) (some (max s.i.toNat memSize)) none) := by
  have h' : memSize < s.effAddr 0 + n.val := by unfold State.effAddr at *; omega
  simp only [execDrw, s.readBytes_error h' hn]
  rfl

theorem execLdVxK_eq (x : Reg) : execLdVxK x s = .next (match s.firstKey with
    | some k => (s.setReg x (BitVec.ofNat 8 k.val)).advance
    | none => s) := by
  unfold execLdVxK; split <;> simp_all

end Sys2Proof.Machine
end

