-- ==== Sys2Proof/Laws/Cycle.lean ====
section
/-!
SUPPORT. What a cycle, a host event and a step can do, said once (spec/40_cycle.md R120, R125; spec/60_exceptions.md R308,
R309); and what placing a word leaves.
-/

namespace Sys2Proof.Machine

variable (s : State)

/-! The timer update (R308, R309). -/

@[simp] theorem State.delayUpdate_dtTicks : s.delayUpdate.dtTicks = s.dtTicks - 1 := by
  unfold State.delayUpdate
  split_ifs with h
  · rfl
  · omega

theorem State.delayUpdate_frame : s.delayUpdate = { s with dtTicks := s.delayUpdate.dtTicks } := by
  unfold State.delayUpdate; split <;> rfl

/-- The sound update: the count falls, and where playback is active and the count shows as 0, it stops with one event. -/
theorem State.soundUpdate_eq : s.soundUpdate =
    if s.stActive = true ∧ (s.stTicks - 1) / s.cfg.k = 0
    then { s with stTicks := s.stTicks - 1, stActive := false, events := s.events ++ [.audioStop] }
    else { s with stTicks := s.stTicks - 1 } := by
  have h : (if 0 < s.stTicks then s.setSound (s.stTicks - 1) s.stActive else s) = { s with stTicks := s.stTicks - 1 } := by
    split_ifs with h
    · rfl
    · have : s.stTicks - 1 = s.stTicks := by omega
      rw [this]
  unfold State.soundUpdate
  simp only [h]
  rfl

/-- `TimerUpdate` changes the tick counters, ST_ACTIVE and the event log alone. -/
theorem State.timerUpdate_frame : s.timerUpdate = { s with
    dtTicks := s.dtTicks - 1, stTicks := s.stTicks - 1, stActive := s.timerUpdate.stActive,
    events := s.timerUpdate.events } := by
  unfold State.timerUpdate
  rw [State.soundUpdate_eq, State.delayUpdate_frame]
  split_ifs <;> simp

theorem State.timerUpdate_eq : s.timerUpdate =
    if s.stActive = true ∧ (s.stTicks - 1) / s.cfg.k = 0
    then { s with dtTicks := s.dtTicks - 1, stTicks := s.stTicks - 1, stActive := false,
                  events := s.events ++ [.audioStop] }
    else { s with dtTicks := s.dtTicks - 1, stTicks := s.stTicks - 1 } := by
  unfold State.timerUpdate
  rw [State.soundUpdate_eq, State.delayUpdate_frame]
  simp

theorem afterExec_running (h : s.status = .running) : afterExec s = s.timerUpdate := by simp [afterExec, h]

theorem afterExec_halted {f : FatalRecord} (h : s.status = .halted f) : afterExec s = s := by simp [afterExec, h]

theorem afterExec_eq : afterExec s = if s.status = .running then s.timerUpdate else s := by
  unfold afterExec; split <;> simp_all

/-! The cycle (R120). -/

/-- The same state, halted by a fetch that reaches past the memory or by a word that is no instruction (R302). -/
def fetchHalt (a : Nat) : State := s.halt .memOutOfBounds none (some a) none

def decodeHalt (w : Word) : State := s.halt .invalidInstruction (some w) none none

/-- What a cycle can do: nothing when halted; the fetch fault; the decode fault; or the instruction and what follows it. -/
theorem cycle_cases {t : State} (h : cycle s = .next t) :
    (∃ f, s.status = .halted f ∧ t = s) ∨
    (s.status = .running ∧ ∃ a, s.fetch = .error a ∧ t = fetchHalt s a) ∨
    (s.status = .running ∧ ∃ w, s.fetch = .ok w ∧ decode w = none ∧ t = decodeHalt s w) ∨
    (s.status = .running ∧ ∃ w i s', s.fetch = .ok w ∧ decode w = some i ∧ exec i s = .next s' ∧ t = afterExec s') := by
  unfold cycle at h
  split at h
  · next f hf => injection h with h; exact .inl ⟨f, hf, h.symm⟩
  · next hr =>
    split at h
    · next a ha => injection h with h; exact .inr (.inl ⟨hr, a, ha, h.symm⟩)
    · next w hw =>
      split at h
      · next hd => injection h with h; exact .inr (.inr (.inl ⟨hr, w, hw, hd, h.symm⟩))
      · next i hd =>
        split at h
        · next s' hs' => injection h with h; exact .inr (.inr (.inr ⟨hr, w, i, s', hw, hd, hs', h.symm⟩))
        · exact absurd h (by simp)
        · exact absurd h (by simp)

theorem cycle_halted {f : FatalRecord} (h : s.status = .halted f) : cycle s = .next s := by simp [cycle, h]

theorem cycle_fetchError {a : Nat} (h : s.status = .running) (ha : s.fetch = .error a) :
    cycle s = .next (fetchHalt s a) := by simp [cycle, h, ha, fetchHalt]

theorem cycle_invalid {w : Word} (h : s.status = .running) (hw : s.fetch = .ok w) (hd : decode w = none) :
    cycle s = .next (decodeHalt s w) := by simp [cycle, h, hw, hd, raise, decodeHalt]

theorem cycle_exec {w : Word} {i : Instr} (h : s.status = .running) (hw : s.fetch = .ok w) (hd : decode w = some i) :
    cycle s = match exec i s with
      | .next t => .next (afterExec t)
      | .fault r => .fault r
      | .refused r => .refused r := by
  cases he : exec i s <;> simp [cycle, h, hw, hd, he]

/-! Host events (R125, R236, R340). -/

/-- What one host event can do. -/
theorem hostEvent_cases {e : HostEvent} {t : State} (h : hostEvent s e = .ok t) :
    (∃ k, e = .keys k ∧ t = { s with keys := k }) ∨
    (e = .frame ∧ (t = s ∨ s.status = .running ∧ s.dirty = true ∧
      t = { s with events := s.events ++ [.present s.fb], dirty := false })) ∨
    (∃ rom, e = .reset rom ∧ s.boot rom = some t) := by
  cases e with
  | keys k => injection h with h; exact .inl ⟨k, rfl, h.symm⟩
  | frame =>
    injection h with h
    refine .inr (.inl ⟨rfl, ?_⟩)
    unfold State.onFrame at h
    split_ifs at h with hc
    · exact .inr ⟨hc.1, hc.2, h.symm⟩
    · exact .inl h.symm
  | reset rom =>
    refine .inr (.inr ⟨rom, rfl, ?_⟩)
    simp only [hostEvent] at h
    split at h
    · next s' hs' => injection h with h; rw [hs', h]
    · exact absurd h (by simp)

/-- A property of states that every host event keeps is kept by a list of them. -/
theorem hostEvents_keep {P : State → Prop} (hP : ∀ s e t, P s → hostEvent s e = .ok t → P t) {es : List HostEvent}
    {t : State} (hs : P s) (h : hostEvents s es = .ok t) : P t := by
  induction es generalizing s with
  | nil => injection h with h; exact h ▸ hs
  | cons e es ih =>
    simp only [hostEvents] at h
    split at h
    · next s' hs' => exact ih s' (hP s e s' hs hs') h
    · exact absurd h (by simp)

/-- A property that does not look at the schedule, that every host event keeps, is kept by landing the events due. -/
theorem landInputs_keep {P : State → Prop} (hin : ∀ s es, P s → P { s with inputs := es })
    (hP : ∀ s e t, P s → hostEvent s e = .ok t → P t) {t : State} (hs : P s) (h : landInputs s = .ok t) : P t := by
  unfold landInputs at h
  split at h
  · injection h with h; exact h ▸ hs
  · exact hostEvents_keep _ hP (hin s _ hs) h

/-! The step. -/

/-- A step that answers a next state landed the events due and ran one cycle. -/
theorem step_cases {t : State} (h : step s = .next t) : ∃ s1, landInputs s = .ok s1 ∧ cycle s1 = .next t := by
  unfold step stepCycle at h
  split at h
  · next s1 h1 => exact ⟨s1, h1, h⟩
  · exact absurd h (by simp)

theorem step_of_land {s1 : State} (h : landInputs s = .ok s1) : step s = cycle s1 := by
  simp only [step, stepCycle, h]

theorem landInputs_nil (h : s.inputs = []) : landInputs s = .ok s := by simp only [landInputs, h]

theorem step_of_noInputs (h : s.inputs = []) : step s = cycle s := step_of_land s (landInputs_nil s h)

/-- An invariant of the machine: a property that does not look at the schedule, that every host event keeps, that the two
faults before an instruction keep, that every instruction keeps, and that the timer update keeps. -/
theorem step_keeps {P : State → Prop} (hin : ∀ s es, P s → P { s with inputs := es })
    (hhost : ∀ s e t, P s → hostEvent s e = .ok t → P t)
    (hfetch : ∀ s a, P s → s.fetch = .error a → P (fetchHalt s a)) (hdec : ∀ s w, P s → P (decodeHalt s w))
    (hexec : ∀ s w i t, P s → s.status = .running → s.fetch = .ok w → exec i s = .next t → P (afterExec t))
    {t : State} (hs : P s) (h : step s = .next t) : P t := by
  obtain ⟨s1, h1, h2⟩ := step_cases s h
  have hs1 := landInputs_keep s hin hhost hs h1
  rcases cycle_cases s1 h2 with ⟨f, -, rfl⟩ | ⟨-, a, ha, rfl⟩ | ⟨-, w, -, -, rfl⟩ | ⟨hr, w, i, s', hw, -, he, rfl⟩
  · exact hs1
  · exact hfetch _ _ hs1 ha
  · exact hdec _ _ hs1
  · exact hexec _ _ _ _ hs1 hr hw he

/-! Placing a word (R63). -/

theorem State.placeWord_byteAt (a : Nat) (w : Word) (q : Nat) :
    (s.placeWord a w).byteAt q = if q = a + 1 then lowByte w else if q = a then highByte w else s.byteAt q := by
  simp [State.placeWord]

theorem State.placeWord_frame (a : Nat) (w : Word) : s.placeWord a w = { s with mem := (s.placeWord a w).mem } := rfl

end Sys2Proof.Machine
end

