-- ==== Sys2Proof/Laws/PerInstr.lean ====
section
/-!
SUPPORT. Families of statements for every instruction, as syntax: one lemma per constructor.
`TableRow`: the encoded word of the instruction, masked as its row of spec/opcode_table.json says, is the row's match value.
-/

namespace Sys2Proof.Laws

/-- The row's mask and match (spec/opcode_table.json). -/
def tableRow : Instr → Word × Word
  | .cls => (0xFFFF, 0x00E0)
  | .ret => (0xFFFF, 0x00EE)
  | .sys _ => (0xF000, 0x0000)
  | .jp _ => (0xF000, 0x1000)
  | .call _ => (0xF000, 0x2000)
  | .seVxNn _ _ => (0xF000, 0x3000)
  | .sneVxNn _ _ => (0xF000, 0x4000)
  | .seVxVy _ _ => (0xF00F, 0x5000)
  | .ldVxNn _ _ => (0xF000, 0x6000)
  | .addVxNn _ _ => (0xF000, 0x7000)
  | .ldVxVy _ _ => (0xF00F, 0x8000)
  | .or _ _ => (0xF00F, 0x8001)
  | .and _ _ => (0xF00F, 0x8002)
  | .xor _ _ => (0xF00F, 0x8003)
  | .addVxVy _ _ => (0xF00F, 0x8004)
  | .sub _ _ => (0xF00F, 0x8005)
  | .shr _ _ => (0xF00F, 0x8006)
  | .subn _ _ => (0xF00F, 0x8007)
  | .shl _ _ => (0xF00F, 0x800E)
  | .sneVxVy _ _ => (0xF00F, 0x9000)
  | .ldI _ => (0xF000, 0xA000)
  | .jpV0 _ => (0xF000, 0xB000)
  | .rnd _ _ => (0xF000, 0xC000)
  | .drw _ _ _ => (0xF000, 0xD000)
  | .skp _ => (0xF0FF, 0xE09E)
  | .sknp _ => (0xF0FF, 0xE0A1)
  | .ldVxDt _ => (0xF0FF, 0xF007)
  | .ldVxK _ => (0xF0FF, 0xF00A)
  | .ldDtVx _ => (0xF0FF, 0xF015)
  | .ldStVx _ => (0xF0FF, 0xF018)
  | .addIVx _ => (0xF0FF, 0xF01E)
  | .ldFVx _ => (0xF0FF, 0xF029)
  | .ldBVx _ => (0xF0FF, 0xF033)
  | .ldMemVx _ => (0xF0FF, 0xF055)
  | .ldVxMem _ => (0xF0FF, 0xF065)

namespace TableRow

/-- The word of the instruction matches its row of the opcode table. -/
def Statement (i : Instr) : Prop := encode i &&& (tableRow i).1 = (tableRow i).2

/-- A mask of the family selector keeps w[15:12]. -/
theorem mask_op {w : Word} {op : Nat} (hop : fieldOp w = op) : w &&& 0xF000 = BitVec.ofNat 16 (op * 4096) := by
  subst hop
  apply BitVec.eq_of_getLsbD_eq
  intro k hk
  rw [BitVec.getLsbD_and, BitVec.getLsbD_ofNat, fieldOp, show w.toNat / 4096 * 4096 = (w.toNat >>> 12) <<< 12 by
    rw [Nat.shiftLeft_eq, Nat.shiftRight_eq_div_pow], Nat.testBit_shiftLeft, Nat.testBit_shiftRight]
  interval_cases k <;> simp [BitVec.getLsbD] <;> (intro _; decide)

/-- A mask of the family selector and the low nibble keeps w[15:12] and w[3:0]. -/
theorem mask_op_fn {w : Word} {op : Nat} {n : Fin 16} (hop : fieldOp w = op) (hn : fieldN w = n) :
    w &&& 0xF00F = BitVec.ofNat 16 (op * 4096 + n.val) := by
  subst hop hn
  apply BitVec.eq_of_getLsbD_eq
  intro k hk
  have e : fieldOp w * 4096 + (fieldN w).val = 2 ^ 12 * (w.toNat >>> 12) + w.toNat % 2 ^ 4 := by
    simp only [fieldOp, fieldN, Nat.shiftRight_eq_div_pow]; omega
  rw [BitVec.getLsbD_and, BitVec.getLsbD_ofNat, e, Nat.testBit_two_pow_mul_add _ (by omega),
    Nat.testBit_mod_two_pow, Nat.testBit_shiftRight]
  interval_cases k <;> simp [BitVec.getLsbD] <;> (intro _; decide)

/-- A mask of the family selector and the low byte keeps w[15:12] and w[7:0]. -/
theorem mask_op_byte {w : Word} {op : Nat} {nn : Byte} (hop : fieldOp w = op) (hn : fieldNN w = nn) :
    w &&& 0xF0FF = BitVec.ofNat 16 (op * 4096 + nn.toNat) := by
  subst hop hn
  apply BitVec.eq_of_getLsbD_eq
  intro k hk
  have e : fieldOp w * 4096 + (fieldNN w).toNat = 2 ^ 12 * (w.toNat >>> 12) + w.toNat % 2 ^ 8 := by
    simp only [fieldOp, fieldNN, BitVec.toNat_ofNat, Nat.shiftRight_eq_div_pow]; omega
  rw [BitVec.getLsbD_and, BitVec.getLsbD_ofNat, e, Nat.testBit_two_pow_mul_add _ (by omega),
    Nat.testBit_mod_two_pow, Nat.testBit_shiftRight]
  interval_cases k <;> simp [BitVec.getLsbD] <;> (intro _; decide)

theorem cls : Statement .cls := rfl
theorem ret : Statement .ret := rfl
theorem sys (nnn : Addr12) : Statement (.sys nnn) := mask_op (fieldOp_wordNNN (op := 0) (by decide) nnn)
theorem jp (nnn : Addr12) : Statement (.jp nnn) := mask_op (fieldOp_wordNNN (op := 1) (by decide) nnn)
theorem call (nnn : Addr12) : Statement (.call nnn) := mask_op (fieldOp_wordNNN (op := 2) (by decide) nnn)
theorem seVxNn (x : Reg) (nn : Byte) : Statement (.seVxNn x nn) := mask_op (fieldOp_wordXNN (op := 3) (by decide) x nn)
theorem sneVxNn (x : Reg) (nn : Byte) : Statement (.sneVxNn x nn) := mask_op (fieldOp_wordXNN (op := 4) (by decide) x nn)
theorem seVxVy (x : Reg) (y : Reg) : Statement (.seVxVy x y) := mask_op_fn (fieldOp_wordXYN (op := 5) (by decide) x y _) (fieldN_wordXYN (by decide) x y _)
theorem ldVxNn (x : Reg) (nn : Byte) : Statement (.ldVxNn x nn) := mask_op (fieldOp_wordXNN (op := 6) (by decide) x nn)
theorem addVxNn (x : Reg) (nn : Byte) : Statement (.addVxNn x nn) := mask_op (fieldOp_wordXNN (op := 7) (by decide) x nn)
theorem ldVxVy (x : Reg) (y : Reg) : Statement (.ldVxVy x y) := mask_op_fn (fieldOp_wordXYN (op := 8) (by decide) x y _) (fieldN_wordXYN (by decide) x y _)
theorem or (x : Reg) (y : Reg) : Statement (.or x y) := mask_op_fn (fieldOp_wordXYN (op := 8) (by decide) x y _) (fieldN_wordXYN (by decide) x y _)
theorem and (x : Reg) (y : Reg) : Statement (.and x y) := mask_op_fn (fieldOp_wordXYN (op := 8) (by decide) x y _) (fieldN_wordXYN (by decide) x y _)
theorem xor (x : Reg) (y : Reg) : Statement (.xor x y) := mask_op_fn (fieldOp_wordXYN (op := 8) (by decide) x y _) (fieldN_wordXYN (by decide) x y _)
theorem addVxVy (x : Reg) (y : Reg) : Statement (.addVxVy x y) := mask_op_fn (fieldOp_wordXYN (op := 8) (by decide) x y _) (fieldN_wordXYN (by decide) x y _)
theorem sub (x : Reg) (y : Reg) : Statement (.sub x y) := mask_op_fn (fieldOp_wordXYN (op := 8) (by decide) x y _) (fieldN_wordXYN (by decide) x y _)
theorem shr (x : Reg) (y : Reg) : Statement (.shr x y) := mask_op_fn (fieldOp_wordXYN (op := 8) (by decide) x y _) (fieldN_wordXYN (by decide) x y _)
theorem subn (x : Reg) (y : Reg) : Statement (.subn x y) := mask_op_fn (fieldOp_wordXYN (op := 8) (by decide) x y _) (fieldN_wordXYN (by decide) x y _)
theorem shl (x : Reg) (y : Reg) : Statement (.shl x y) := mask_op_fn (fieldOp_wordXYN (op := 8) (by decide) x y _) (fieldN_wordXYN (by decide) x y _)
theorem sneVxVy (x : Reg) (y : Reg) : Statement (.sneVxVy x y) := mask_op_fn (fieldOp_wordXYN (op := 9) (by decide) x y _) (fieldN_wordXYN (by decide) x y _)
theorem ldI (nnn : Addr12) : Statement (.ldI nnn) := mask_op (fieldOp_wordNNN (op := 10) (by decide) nnn)
theorem jpV0 (nnn : Addr12) : Statement (.jpV0 nnn) := mask_op (fieldOp_wordNNN (op := 11) (by decide) nnn)
theorem rnd (x : Reg) (nn : Byte) : Statement (.rnd x nn) := mask_op (fieldOp_wordXNN (op := 12) (by decide) x nn)
theorem drw (x : Reg) (y : Reg) (n : Fin 16) : Statement (.drw x y n) := mask_op (fieldOp_wordXYN (op := 13) (by decide) x y n)
theorem skp (x : Reg) : Statement (.skp x) := mask_op_byte (fieldOp_wordXNN (op := 14) (by decide) x _) (fieldNN_wordXNN (by decide) x _)
theorem sknp (x : Reg) : Statement (.sknp x) := mask_op_byte (fieldOp_wordXNN (op := 14) (by decide) x _) (fieldNN_wordXNN (by decide) x _)
theorem ldVxDt (x : Reg) : Statement (.ldVxDt x) := mask_op_byte (fieldOp_wordXNN (op := 15) (by decide) x _) (fieldNN_wordXNN (by decide) x _)
theorem ldVxK (x : Reg) : Statement (.ldVxK x) := mask_op_byte (fieldOp_wordXNN (op := 15) (by decide) x _) (fieldNN_wordXNN (by decide) x _)
theorem ldDtVx (x : Reg) : Statement (.ldDtVx x) := mask_op_byte (fieldOp_wordXNN (op := 15) (by decide) x _) (fieldNN_wordXNN (by decide) x _)
theorem ldStVx (x : Reg) : Statement (.ldStVx x) := mask_op_byte (fieldOp_wordXNN (op := 15) (by decide) x _) (fieldNN_wordXNN (by decide) x _)
theorem addIVx (x : Reg) : Statement (.addIVx x) := mask_op_byte (fieldOp_wordXNN (op := 15) (by decide) x _) (fieldNN_wordXNN (by decide) x _)
theorem ldFVx (x : Reg) : Statement (.ldFVx x) := mask_op_byte (fieldOp_wordXNN (op := 15) (by decide) x _) (fieldNN_wordXNN (by decide) x _)
theorem ldBVx (x : Reg) : Statement (.ldBVx x) := mask_op_byte (fieldOp_wordXNN (op := 15) (by decide) x _) (fieldNN_wordXNN (by decide) x _)
theorem ldMemVx (x : Reg) : Statement (.ldMemVx x) := mask_op_byte (fieldOp_wordXNN (op := 15) (by decide) x _) (fieldNN_wordXNN (by decide) x _)
theorem ldVxMem (x : Reg) : Statement (.ldVxMem x) := mask_op_byte (fieldOp_wordXNN (op := 15) (by decide) x _) (fieldNN_wordXNN (by decide) x _)

end TableRow

end Sys2Proof.Laws
end

