-- ==== Sys2Proof/Tests/Slice0.lean ====
section
/-!
SUPPORT. The model's own tests. The words of the decode tests are written out bit by bit from the patterns of
spec/30_encoding.md R99; the expected values of the step tests are the vectors of spec/95_test_vectors.md, named in each
comment (K = 1, unless a test says otherwise). After them, for every obligation with hypotheses, states that meet them.
-/

namespace Sys2Proof.Tests

open Sys2Proof.Machine

/-! Helpers. -/

/-- The reset state, under default parameters. -/
def base : State := State.reset

/-- Registers set. -/
def regs (l : List (Reg × Byte)) (s : State := base) : State := l.foldl (fun s p => s.setReg p.1 p.2) s

/-- Bytes set. -/
def bytes (l : List (Nat × Byte)) (s : State := base) : State := l.foldl (fun s p => s.setByte p.1 p.2) s

/-- I set. -/
def idx (i : Word) (s : State := base) : State := s.setI i

/-- The answer's state. -/
def answer (r : Result) : Option State :=
  match r with
  | .next t => some t
  | .fault _ | .refused _ => none

/-- One step that runs the word w, and what `f` reads of the state after it. -/
def after {α : Type} (s : State) (w : Nat) (f : State → α) : Option α := (answer (step (s.withFetchWord 16 w))).map f

/-- One step, and what `f` reads of the state after it. -/
def stepped {α : Type} (s : State) (f : State → α) : Option α := (answer (step s)).map f

/-- The lit pixels of a row. -/
def lit (s : State) (y : Nat) : List Nat := (List.range 64).filter fun x => pixel s.fb x y

/-- A framebuffer lit at (0, 0) alone. -/
def dot : FrameBuffer := togglePixel blankScreen 0 0

/-! WellFormed: the two SYS targets that are other instructions, and their neighbours (R141). -/

theorem test_wf_sys_00E0 : (Instr.sys 0x0E0).wf = false := by decide

theorem test_wf_sys_00EE : (Instr.sys 0x0EE).wf = false := by decide

theorem test_wf_sys_00E1 : (Instr.sys 0x0E1).wf = true := by decide

theorem test_wf_sys_00EF : (Instr.sys 0x0EF).wf = true := by decide

/-! Decode: one word of every row, written in binary from its pattern (R99). -/

theorem test_decode_cls : decode 0b0000000011100000 = some (.cls) ∧ encode (.cls) = 0b0000000011100000 := by decide

theorem test_decode_ret : decode 0b0000000011101110 = some (.ret) ∧ encode (.ret) = 0b0000000011101110 := by decide

theorem test_decode_sys :
    decode 0b0000000011100001 = some (.sys 0x0E1) ∧ encode (.sys 0x0E1) = 0b0000000011100001 := by decide

theorem test_decode_jp :
    decode 0b0001101010111100 = some (.jp 0xABC) ∧ encode (.jp 0xABC) = 0b0001101010111100 := by decide

theorem test_decode_call :
    decode 0b0010001000010000 = some (.call 0x210) ∧ encode (.call 0x210) = 0b0010001000010000 := by decide

theorem test_decode_seVxNn :
    decode 0b0011001101000010 = some (.seVxNn 3 0x42) ∧ encode (.seVxNn 3 0x42) = 0b0011001101000010 := by decide

theorem test_decode_sneVxNn :
    decode 0b0100001101000010 = some (.sneVxNn 3 0x42) ∧ encode (.sneVxNn 3 0x42) = 0b0100001101000010 := by decide

theorem test_decode_seVxVy :
    decode 0b0101000100100000 = some (.seVxVy 1 2) ∧ encode (.seVxVy 1 2) = 0b0101000100100000 := by decide

theorem test_decode_ldVxNn :
    decode 0b0110101001011100 = some (.ldVxNn 0xA 0x5C) ∧ encode (.ldVxNn 0xA 0x5C) = 0b0110101001011100 := by decide

theorem test_decode_addVxNn :
    decode 0b0111000111111111 = some (.addVxNn 1 0xFF) ∧ encode (.addVxNn 1 0xFF) = 0b0111000111111111 := by decide

theorem test_decode_ldVxVy :
    decode 0b1000000100100000 = some (.ldVxVy 1 2) ∧ encode (.ldVxVy 1 2) = 0b1000000100100000 := by decide

theorem test_decode_or : decode 0b1000000100100001 = some (.or 1 2) ∧ encode (.or 1 2) = 0b1000000100100001 := by decide

theorem test_decode_and :
    decode 0b1000000100100010 = some (.and 1 2) ∧ encode (.and 1 2) = 0b1000000100100010 := by decide

theorem test_decode_xor :
    decode 0b1000000100100011 = some (.xor 1 2) ∧ encode (.xor 1 2) = 0b1000000100100011 := by decide

theorem test_decode_addVxVy :
    decode 0b1000000100100100 = some (.addVxVy 1 2) ∧ encode (.addVxVy 1 2) = 0b1000000100100100 := by decide

theorem test_decode_sub :
    decode 0b1000000100100101 = some (.sub 1 2) ∧ encode (.sub 1 2) = 0b1000000100100101 := by decide

theorem test_decode_shr :
    decode 0b1000000100100110 = some (.shr 1 2) ∧ encode (.shr 1 2) = 0b1000000100100110 := by decide

theorem test_decode_subn :
    decode 0b1000000100100111 = some (.subn 1 2) ∧ encode (.subn 1 2) = 0b1000000100100111 := by decide

theorem test_decode_shl :
    decode 0b1000000100101110 = some (.shl 1 2) ∧ encode (.shl 1 2) = 0b1000000100101110 := by decide

theorem test_decode_sneVxVy :
    decode 0b1001000100100000 = some (.sneVxVy 1 2) ∧ encode (.sneVxVy 1 2) = 0b1001000100100000 := by decide

theorem test_decode_ldI :
    decode 0b1010001100000000 = some (.ldI 0x300) ∧ encode (.ldI 0x300) = 0b1010001100000000 := by decide

theorem test_decode_jpV0 :
    decode 0b1011001100000000 = some (.jpV0 0x300) ∧ encode (.jpV0 0x300) = 0b1011001100000000 := by decide

theorem test_decode_rnd :
    decode 0b1100001100001111 = some (.rnd 3 0x0F) ∧ encode (.rnd 3 0x0F) = 0b1100001100001111 := by decide

theorem test_decode_drw :
    decode 0b1101000000010101 = some (.drw 0 1 5) ∧ encode (.drw 0 1 5) = 0b1101000000010101 := by decide

theorem test_decode_skp : decode 0b1110010110011110 = some (.skp 5) ∧ encode (.skp 5) = 0b1110010110011110 := by decide

theorem test_decode_sknp :
    decode 0b1110010110100001 = some (.sknp 5) ∧ encode (.sknp 5) = 0b1110010110100001 := by decide

theorem test_decode_ldVxDt :
    decode 0b1111001100000111 = some (.ldVxDt 3) ∧ encode (.ldVxDt 3) = 0b1111001100000111 := by decide

theorem test_decode_ldVxK :
    decode 0b1111001000001010 = some (.ldVxK 2) ∧ encode (.ldVxK 2) = 0b1111001000001010 := by decide

theorem test_decode_ldDtVx :
    decode 0b1111000000010101 = some (.ldDtVx 0) ∧ encode (.ldDtVx 0) = 0b1111000000010101 := by decide

theorem test_decode_ldStVx :
    decode 0b1111010000011000 = some (.ldStVx 4) ∧ encode (.ldStVx 4) = 0b1111010000011000 := by decide

theorem test_decode_addIVx :
    decode 0b1111000100011110 = some (.addIVx 1) ∧ encode (.addIVx 1) = 0b1111000100011110 := by decide

theorem test_decode_ldFVx :
    decode 0b1111001000101001 = some (.ldFVx 2) ∧ encode (.ldFVx 2) = 0b1111001000101001 := by decide

theorem test_decode_ldBVx :
    decode 0b1111000000110011 = some (.ldBVx 0) ∧ encode (.ldBVx 0) = 0b1111000000110011 := by decide

theorem test_decode_ldMemVx :
    decode 0b1111001001010101 = some (.ldMemVx 2) ∧ encode (.ldMemVx 2) = 0b1111001001010101 := by decide

theorem test_decode_ldVxMem :
    decode 0b1111111101100101 = some (.ldVxMem 0xF) ∧ encode (.ldVxMem 0xF) = 0b1111111101100101 := by decide

/-- T-DEC-3 to T-DEC-9: words of no instruction. -/
theorem test_decode_invalid :
    [0x5001, 0x9AB1, 0x8128, 0x800F, 0xE19F, 0xF000, 0xF156].map decode = List.replicate 7 none := by decide

/-- T-DEC-1: big-endian. -/
theorem test_decode_bytes : decodeBytes [0x12, 0x34, 0x56] = .ok (.jp 0x234, [0x56]) := by decide

theorem test_decode_truncated : decodeBytes [0x12] = .error .truncated := by decide

/-! One step of each instruction. -/

/-- The codes of R301. -/
theorem test_codes : [FatalKind.invalidInstruction, .stackUnderflow, .memOutOfBounds, .keyIndexOutOfRange,
    .stackOverflow, .iOverflowFault].map FatalKind.code = [1, 2, 3, 4, 5, 6] := by decide

/-- T-DEC-2. -/
theorem test_fetch_oddPc :
    after { base with pc := 0x201 } 0x6005 (fun t => (t.reg 0, t.pc)) = some (0x05, 0x203) := by decide

/-- T-DEC-11. -/
theorem test_fetch_pastTheEnd :
    stepped { base with pc := 0xFFF } State.faultPort = some (some (fatalRecord .memOutOfBounds 0xFFF none (some 0x1000) none)) := by decide

/-- T-CT-7, the next cycle. -/
theorem test_fetch_farPastTheEnd :
    stepped { base with pc := 0x10FE } State.faultPort = some (some (fatalRecord .memOutOfBounds 0x10FE none (some 0x10FE) none)) := by decide

/-- T-DEC-13. -/
theorem test_fetch_lastWord :
    stepped { base with pc := 0xFFE } (fun t => (t.stack, t.pc)) = some ([0x1000], 0x000) := by decide

/-- S7, T-DEC-3. -/
theorem test_invalid :
    after base 0x5001 (fun t => (t.faultPort, t.pc)) = some (some (fatalRecord .invalidInstruction 0x200 (some 0x5001) none none), 0x200) := by decide

/-- T-DSP-10. -/
theorem test_cls :
    after { base with fb := dot } 0x00E0 (fun t => (t.fb == blankScreen, t.dirty, t.pc)) = some (true, true, 0x202) :=
  by decide

/-- T-CT-3. -/
theorem test_ret :
    after { base with pc := 0x300, stack := [0x202] } 0x00EE (fun t => (t.pc, t.stack)) = some (0x202, []) := by decide

/-- T-CT-4. -/
theorem test_ret_underflow :
    after base 0x00EE State.faultPort = some (some (fatalRecord .stackUnderflow 0x200 (some 0x00EE) none none)) :=
  by decide

/-- T-CT-5. -/
theorem test_sys :
    after base 0x0300 (fun t => (t.pc, t.stack)) = some (0x300, [0x202]) := by decide

/-- T-CT-1. -/
theorem test_jp :
    after base 0x1ABC (fun t => (t.pc, t.stack)) = some (0xABC, []) := by decide

/-- S5: a jump to itself is no fault, and the delay count falls. -/
theorem test_jp_self :
    after { base with dtTicks := 3 } 0x1200 (fun t => (t.pc, t.status, t.dtTicks)) = some (0x200, .running, 2) :=
  by decide

/-- T-CT-2. -/
theorem test_call :
    after base 0x2300 (fun t => (t.pc, t.stack)) = some (0x300, [0x202]) := by decide

/-- T-CT-8. -/
theorem test_call_overflow :
    after { base with pc := 0x300, stack := [0x202], cfg := { base.cfg with stackCapacity := some 1 } } 0x2400
      (fun t => (t.faultPort, t.stack)) = some (some (fatalRecord .stackOverflow 0x300 (some 0x2400) none none), [0x202]) := by decide

/-- T-CT-6. -/
theorem test_jpV0 :
    after (regs [(0, 0x10)]) 0xB300 (fun t => t.pc) = some 0x310 := by decide

/-- T-CT-7: V0 is added, whatever the X nibble. -/
theorem test_jpV0_pastTheEnd :
    after (regs [(0, 0xFF)]) 0xBFFF (fun t => t.pc) = some 0x10FE := by decide

/-- T-SK-1, S9. -/
theorem test_seVxNn :
    after (regs [(3, 0x42)]) 0x3342 (fun t => t.pc) = some 0x204 := by decide

/-- T-SK-2. -/
theorem test_seVxNn_not :
    after (regs [(3, 0x41)]) 0x3342 (fun t => t.pc) = some 0x202 := by decide

/-- T-SK-3. -/
theorem test_sneVxNn :
    after (regs [(3, 0x41)]) 0x4342 (fun t => t.pc) = some 0x204 := by decide

/-- T-SK-4. -/
theorem test_sneVxNn_not :
    after (regs [(3, 0x42)]) 0x4342 (fun t => t.pc) = some 0x202 := by decide

/-- T-SK-5. -/
theorem test_seVxVy :
    after (regs [(1, 7), (2, 7)]) 0x5120 (fun t => t.pc) = some 0x204 := by decide

/-- T-SK-6. -/
theorem test_sneVxVy :
    after (regs [(1, 7), (2, 8)]) 0x9120 (fun t => t.pc) = some 0x204 := by decide

/-- T-SK-7. -/
theorem test_sneVxVy_not :
    after (regs [(1, 7), (2, 7)]) 0x9120 (fun t => t.pc) = some 0x202 := by decide

/-- T-SK-8: key A is bit 10. -/
theorem test_skp :
    after { regs [(5, 0xA)] with keys := 0x400 } 0xE59E (fun t => t.pc) = some 0x204 := by decide

/-- T-SK-11. -/
theorem test_skp_keyIndex :
    after (regs [(5, 0x10)]) 0xE59E State.faultPort = some (some (fatalRecord .keyIndexOutOfRange 0x200 (some 0xE59E) none (some 0x10))) := by decide

/-- T-SK-10. -/
theorem test_sknp :
    after (regs [(5, 0xA)]) 0xE5A1 (fun t => t.pc) = some 0x204 := by decide

/-- R165: no skip while the key is down. -/
theorem test_sknp_not :
    after { regs [(5, 0xA)] with keys := 0x400 } 0xE5A1 (fun t => t.pc) = some 0x202 := by decide

/-- T-ALU-29. -/
theorem test_ldVxNn :
    after base 0x6A5C (fun t => (t.reg 0xA, t.pc)) = some (0x5C, 0x202) := by decide

/-- T-ALU-30. -/
theorem test_addVxNn :
    after (regs [(1, 0xFF), (0xF, 7)]) 0x7102 (fun t => (t.reg 1, t.reg 0xF)) = some (0x01, 7) := by decide

/-- T-ALU-31. -/
theorem test_addVxNn_vf :
    after (regs [(0xF, 7)]) 0x7F01 (fun t => t.reg 0xF) = some 8 := by decide

/-- T-ALU-32. -/
theorem test_ldVxVy :
    after (regs [(2, 0x33)]) 0x8120 (fun t => (t.reg 1, t.reg 2)) = some (0x33, 0x33) := by decide

/-- T-ALU-1. -/
theorem test_or :
    after (regs [(1, 0xF0), (2, 0x0F), (0xF, 7)]) 0x8121 (fun t => (t.reg 1, t.reg 0xF)) = some (0xFF, 7) := by decide

/-- T-ALU-2. -/
theorem test_and :
    after (regs [(1, 0xF0), (2, 0x3C), (0xF, 7)]) 0x8122 (fun t => (t.reg 1, t.reg 0xF)) = some (0x30, 7) := by decide

/-- T-ALU-3. -/
theorem test_xor :
    after (regs [(1, 0xFF), (2, 0xFF), (0xF, 7)]) 0x8123 (fun t => (t.reg 1, t.reg 0xF)) = some (0x00, 7) := by decide

/-- S1, T-ALU-4. -/
theorem test_addVxVy :
    after (regs [(1, 0xFF), (2, 0x01), (0xF, 7)]) 0x8124 (fun t => (t.reg 1, t.reg 0xF, t.pc)) = some (0x00, 1, 0x202) :=
  by decide

/-- T-ALU-27: VF is read as Vy before the flag is written. -/
theorem test_addVxVy_fromVf :
    after (regs [(1, 0x01), (0xF, 0xFF)]) 0x81F4 (fun t => (t.reg 1, t.reg 0xF)) = some (0x00, 1) := by decide

/-- S2, T-ALU-8. -/
theorem test_sub :
    after (regs [(1, 0x01), (2, 0x02), (0xF, 7)]) 0x8125 (fun t => (t.reg 1, t.reg 0xF)) = some (0xFF, 0) := by decide

/-- T-ALU-9: no borrow when equal. -/
theorem test_sub_equal :
    after (regs [(1, 0x05), (2, 0x05), (0xF, 7)]) 0x8125 (fun t => (t.reg 1, t.reg 0xF)) = some (0x00, 1) := by decide

/-- T-ALU-21: Vx is shifted, V2 is ignored. -/
theorem test_shr :
    after (regs [(1, 0x03), (2, 0x99), (0xF, 7)]) 0x8126 (fun t => (t.reg 1, t.reg 2, t.reg 0xF)) = some (0x01, 0x99, 1) := by decide

/-- T-ALU-24: the flag is written last. -/
theorem test_shr_vf :
    after (regs [(0xF, 0x03)]) 0x8F26 (fun t => t.reg 0xF) = some 1 := by decide

/-- T-ALU-16. -/
theorem test_subn :
    after (regs [(1, 0x01), (2, 0x02), (0xF, 7)]) 0x8127 (fun t => (t.reg 1, t.reg 0xF)) = some (0x01, 1) := by decide

/-- T-ALU-15. -/
theorem test_subn_borrow :
    after (regs [(1, 0x02), (2, 0x01), (0xF, 7)]) 0x8127 (fun t => (t.reg 1, t.reg 0xF)) = some (0xFF, 0) := by decide

/-- T-ALU-19. -/
theorem test_shl :
    after (regs [(1, 0x7F), (0xF, 7)]) 0x812E (fun t => (t.reg 1, t.reg 0xF)) = some (0xFE, 0) := by decide

/-- T-ALU-25. -/
theorem test_shl_vf :
    after (regs [(0xF, 0x81)]) 0x8F2E (fun t => t.reg 0xF) = some 1 := by decide

/-- T-ALU-34: with NN = 0 the result is 0, whatever the byte drawn. -/
theorem test_rnd_mask : exec (.rnd 3 0) base = .next { base with pc := 0x202, draws := 1 } := by
  have h : (Config.randByte 0 &&& 0) = (0 : Byte) := BitVec.and_zero
  show Host.Outcome.next _ = _
  simp only [State.drawRandom, base, State.reset, h]
  rfl

/-- T-MEM-1. -/
theorem test_ldI :
    after base 0xA300 (fun t => (t.i, t.pc)) = some (0x300, 0x202) := by decide

/-- T-MEM-3. -/
theorem test_addIVx_wrap :
    after (regs [(1, 0x01), (0xF, 7)] (idx 0xFFFF)) 0xF11E (fun t => (t.i, t.reg 0xF)) = some (0x0000, 7) := by decide

/-- T-MEM-4. -/
theorem test_addIVx_fatal :
    after { regs [(1, 0x01)] (idx 0xFFFF) with cfg := { base.cfg with iOverflow := .fatal } } 0xF11E
      (fun t => (t.faultPort, t.i)) = some (some (fatalRecord .iOverflowFault 0x200 (some 0xF11E) none none), 0xFFFF) :=
  by decide

/-- T-MEM-6. -/
theorem test_ldFVx :
    after (regs [(2, 0x0A)]) 0xF229 (fun t => t.i) = some 0x0032 := by decide

/-- T-MEM-8. -/
theorem test_ldFVx_unmasked :
    after (regs [(2, 0xFF)]) 0xF229 (fun t => t.i) = some 0x04FB := by decide

/-- T-MEM-9. -/
theorem test_ldBVx :
    after (regs [(0, 0xFE)] (idx 0x300)) 0xF033 (fun t => (bytesFrom t 0x300 3, t.i)) = some ([2, 5, 4], 0x300) :=
  by decide

/-- T-MEM-17. -/
theorem test_ldBVx_pastTheEnd :
    after (regs [(0, 0xFF)] (idx 0xFFE)) 0xF033 (fun t => (bytesFrom t 0xFFE 2, t.faultPort)) =
      some ([2, 5], some (fatalRecord .memOutOfBounds 0x200 (some 0xF033) (some 0x1000) none)) := by decide

/-- T-MEM-13. -/
theorem test_ldMemVx :
    after (regs [(0, 1), (1, 2), (2, 3), (3, 4)] (idx 0x300)) 0xF255 (fun t => (bytesFrom t 0x300 4, t.i)) =
      some ([1, 2, 3, 0], 0x300) := by decide

/-- T-MEM-16. -/
theorem test_ldMemVx_pastTheEnd :
    after (regs [(0, 0xAA), (1, 0xBB), (2, 0xCC), (3, 0xDD)] (idx 0xFFE)) 0xF355
      (fun t => (bytesFrom t 0xFFE 2, t.faultPort)) = some ([0xAA, 0xBB], some (fatalRecord .memOutOfBounds 0x200 (some 0xF355) (some 0x1000) none)) := by decide

/-- T-MEM-14. -/
theorem test_ldVxMem :
    after (bytes [(0x300, 1), (0x301, 2), (0x302, 3), (0x303, 4)] (idx 0x300)) 0xF265
      (fun t => ([t.reg 0, t.reg 1, t.reg 2, t.reg 3], t.i)) = some ([1, 2, 3, 0], 0x300) := by decide

/-- T-MEM-18. -/
theorem test_ldVxMem_pastTheEnd :
    after (regs [(0, 9)] (idx 0x1000)) 0xF065 (fun t => (t.reg 0, t.faultPort)) =
      some (9, some (fatalRecord .memOutOfBounds 0x200 (some 0xF065) (some 0x1000) none)) := by decide

/-- T-DSP-3. -/
theorem test_drw_clip :
    after (regs [(0, 0x3E)] (bytes [(0x20C, 0xFF), (0x20D, 0x81)] (idx 0x20C))) 0xD012
      (fun t => (lit t 0, lit t 1, lit t 2, t.reg 0xF, t.dirty)) = some ([62, 63], [62], [], 0, true) := by decide

/-- T-DSP-11 and T-DSP-2: VF is the y coordinate, then the collision. -/
theorem test_drw_collide :
    after { regs [(0xF, 0)] (bytes [(0x20A, 0xC0)] (idx 0x20A)) with fb := dot } 0xD0F1
      (fun t => (lit t 0, t.reg 0xF)) = some ([1], 1) := by decide

/-- S11: K = 2. -/
theorem test_ldVxDt :
    after { base with dtTicks := 5, cfg := { base.cfg with clockHz := 120 } } 0xF307 (fun t => t.reg 3) = some 2 :=
  by decide

/-- T-KEY-1. -/
theorem test_ldVxK :
    after { base with pc := 0x210, keys := 0x88 } 0xF20A (fun t => (t.reg 2, t.pc)) = some (3, 0x212) := by decide

/-- T-KEY-2: the delay count still falls. -/
theorem test_ldVxK_wait :
    after { regs [(2, 9)] with pc := 0x210, dtTicks := 2 } 0xF20A (fun t => (t.reg 2, t.pc, t.dtTicks)) =
      some (9, 0x210, 1) := by decide

/-- T-TIM-3: K = 2, and the update of the same cycle. -/
theorem test_ldDtVx :
    after { regs [(0, 3)] with cfg := { base.cfg with clockHz := 120 } } 0xF015 (fun t => t.dtTicks) = some 5 :=
  by decide

/-- T-TIM-6, cycle 1. -/
theorem test_ldStVx :
    after (regs [(4, 2)]) 0xF418 (fun t => (t.stTicks, t.stActive, t.events)) = some (1, true, [.audioStart 2]) :=
  by decide

/-- T-TIM-8. -/
theorem test_ldStVx_zero :
    after (regs [(4, 0)]) 0xF418 (fun t => (t.stTicks, t.stActive, t.events)) =
      some (0, false, [.audioStart 0, .audioStop]) := by decide

/-- T-DSP-13: present and DIRTY cleared; a second frame emits nothing. -/
theorem test_frame :
    stepped { base with fb := dot, dirty := true, inputs := [[.frame, .frame]] }
      (fun t => (t.events, t.dirty)) = some ([.present dot], false) := by decide

/-- S12: the ROM 12 00 is placed at 0x200, and the cycle after reset runs it. -/
theorem test_boot :
    stepped { base with pc := 0x300, inputs := [[.reset [0x12, 0x00]]] } (fun t => (bytesFrom t 0x200 2, t.pc)) =
      some ([0x12, 0x00], 0x200) := by decide

/-- R342: an empty ROM. -/
theorem test_boot_refused :
    step { base with inputs := [[.reset []]] } = .refused .romLoadFailure := rfl

/-! For every obligation with hypotheses, states and operands that meet all of them together, at the boundary values of
each clause. -/

/-- A halted state. -/
def dead : State := { base with status := .halted (fatalRecord .stackUnderflow 0x200 (some 0x00EE) none none) }

/-- A state with work under way: K = 2, a bounded stack with one entry and room for one more, ticks and playback. -/
def busy : State := { base with
  regs := Vector.replicate 16 0xFF, mem := [(0x200, 0xF4), (0x201, 0x18)], stack := [0x1000], dtTicks := 510, stTicks := 2,
  stActive := true, events := [.audioStart 1], dirty := true,
  cfg := { base.cfg with clockHz := 120, stackCapacity := some 2 }, inputs := [[.frame, .keys 0x8000]] }

/-- The neighbours of the excluded SYS targets, and an instruction with every field at its top. -/
theorem meets_DecodeOfEncode :
    (Instr.sys 0x0EF).wf = true ∧ (Instr.sys 0x000).wf = true ∧ (Instr.drw 0xF 0xF 0xF).wf = true := by decide

theorem meets_EncodeOfDecode :
    decode 0x00EF = some (.sys 0x0EF) ∧ decode 0xFF65 = some (.ldVxMem 0xF) := by decide

/-- The last clause: a word of no instruction at the last address that holds one. -/
theorem meets_InvalidWords :
    let s := bytes [(0xFFE, 0xFF), (0xFFF, 0xFF)] { base with pc := 0xFFE }
    s.inputs = [] ∧ s.status = .running ∧ s.fetch = .ok 0xFFFF ∧ decode 0xFFFF = none := ⟨rfl, rfl, rfl, by decide⟩

/-- With a host event due, at the last word of memory; the instruction ends running, or raises. -/
theorem meets_StepRunsTheDecoded :
    let s := { bytes [(0xFFE, 0x60), (0xFFF, 0x05)] with pc := 0xFFE, inputs := [[.keys 1]] }
    ∃ s1, landInputs s = .ok s1 ∧ s1.status = .running ∧ s1.pc.toNat + 1 < 4096 ∧
      decodeBytes [s1.byteAt s1.pc.toNat, s1.byteAt (s1.pc.toNat + 1)] = .ok (.ldVxNn 0 5, []) ∧
      ∃ t, exec (.ldVxNn 0 5) s1 = .next t ∧ t.status = .running := ⟨_, rfl, rfl, by decide, by decide, _, rfl, rfl⟩

theorem meets_StepRunsTheDecoded_raise :
    let s := bytes [(0x200, 0x00), (0x201, 0xEE)]
    landInputs s = .ok s ∧ s.status = .running ∧ s.pc.toNat + 1 < 4096 ∧
      decodeBytes [s.byteAt s.pc.toNat, s.byteAt (s.pc.toNat + 1)] = .ok (.ret, []) ∧
      ∃ t, exec .ret s = .next t ∧ t.status ≠ .running := ⟨rfl, rfl, by decide, by decide, _, rfl, by decide⟩

/-- A word placed at the last address that holds one, and where PC is past it. -/
theorem meets_StepRunsThePlacedWord :
    decode 0x00EE = some .ret ∧
    (∃ t, exec .ret ({ base with pc := 0xFFE }.withFetchWord 16 0x00EE) = .next t) ∧ (0xFFE : Word).toNat + 1 < 4096 ∧
    ∃ t, exec .ret ({ dead with pc := 0xFFF }.withFetchWord 16 0x00EE) = .next t :=
  ⟨by decide, ⟨_, rfl⟩, by decide, ⟨_, rfl⟩⟩

/-- PC at 4094, at 4095, at 4096 and at the highest PC an instruction leaves. -/
theorem meets_Fetch :
    (0xFFE : Word).toNat < 4095 ∧ (0xFFF : Word).toNat = 4095 ∧ 4096 ≤ (0x1000 : Word).toNat ∧
    let s := { base with pc := 0x10FE }
    s.inputs = [] ∧ s.status = .running ∧ s.fetch = .error 0x10FE := ⟨by decide, by decide, by decide, rfl, rfl, rfl⟩

theorem meets_Halted :
    dead.status = .halted (fatalRecord .stackUnderflow 0x200 (some 0x00EE) none none) ∧ dead.inputs = [] := ⟨rfl, rfl⟩

/-- With a frame strobe and a key change due. -/
theorem meets_OnlyResetLeavesHalted :
    let s := { dead with dirty := true, inputs := [[.frame, .keys 1], [.reset [0x12]]] }
    s.status = .halted (fatalRecord .stackUnderflow 0x200 (some 0x00EE) none none) ∧
      ∀ es rest, s.inputs = es :: rest → ∀ rom, HostEvent.reset rom ∉ es := by
  refine ⟨rfl, fun es rest h rom => ?_⟩
  injection h with h _
  subst h
  simp

/-- A ROM of n zero bytes. -/
def romOf (n : Nat) : List Byte := List.replicate n 0

theorem romOf_length (n : Nat) : (romOf n).length = n := List.length_replicate

/-- The first clause, with ROMs of 1 and of 3584 bytes due. -/
theorem meets_StepAnswers :
    let s := { base with inputs := [[.reset (romOf 1), .reset (romOf 3584)]] }
    ∀ es rest, s.inputs = es :: rest → ∀ rom, HostEvent.reset rom ∈ es → 0 < rom.length ∧ rom.length ≤ 3584 := by
  intro s es rest h rom hr
  injection h with h _
  subst h
  simp only [List.mem_cons, HostEvent.reset.injEq, List.not_mem_nil, or_false] at hr
  rcases hr with rfl | rfl <;> rw [romOf_length] <;> decide

/-- The second clause, with ROMs of 0 and of 3585 bytes. -/
theorem meets_StepAnswers_refused :
    step { base with inputs := [[.reset []]] } = .refused .romLoadFailure ∧
    step { base with inputs := [[.reset (romOf 3585)]] } = .refused .romLoadFailure := by
  refine ⟨rfl, ?_⟩
  have h : ∀ s : State, s.boot (romOf 3585) = none := fun s => by
    unfold State.boot; rw [if_pos (by rw [romOf_length]; decide)]
  simp only [step, stepCycle, landInputs, hostEvents, hostEvent, h]

/-- A frame strobe with DIRTY set, one without, one of a halted core; an empty list and a list of two events due. -/
theorem meets_HostEvents :
    (busy.status = .running ∧ busy.dirty = true) ∧ (dead.status ≠ .running ∨ dead.dirty = false) ∧
    (base.status ≠ .running ∨ base.dirty = false) ∧ base.inputs = [] ∧ ({ base with inputs := [[]] }).inputs = [] :: [] ∧
    busy.inputs = (.frame :: [.keys 0x8000]) :: [] ∧ ∃ s1, hostEvent { busy with inputs := [] } .frame = .ok s1 :=
  ⟨⟨rfl, rfl⟩, by decide, by decide, rfl, rfl, rfl, _, rfl⟩

/-- ROMs of 1 and of 3584 bytes. -/
theorem meets_RomBytes :
    (0 < (romOf 1).length ∧ (romOf 1).length ≤ 3584) ∧ 0 < (romOf 3584).length ∧ (romOf 3584).length ≤ 3584 := by
  simp only [romOf_length]
  decide

/-- ROMs of 0 and of 3585 bytes are refused, those of 1 and of 3584 are not. -/
theorem meets_ResetLaunch :
    ((romOf 0).length = 0 ∨ 3584 < (romOf 0).length) ∧ ((romOf 3585).length = 0 ∨ 3584 < (romOf 3585).length) ∧
    ({ base with inputs := [[.reset (romOf 3585)]] }).inputs = (.reset (romOf 3585) :: []) :: [] ∧
    (0 < (romOf 1).length ∧ (romOf 1).length ≤ 3584) ∧ 0 < (romOf 3584).length ∧ (romOf 3584).length ≤ 3584 := by
  simp only [romOf_length]
  decide

/-- No bound; a bound with one place left; a bound that is full. -/
theorem meets_CallPushes :
    (Instr.sys 0x300 = .sys 0x300 ∨ Instr.sys 0x300 = .call 0x300) ∧ base.cfg.stackCapacity ≠ some base.stack.length ∧
    busy.cfg.stackCapacity ≠ some busy.stack.length ∧
    let full := { busy with stack := [0x202, 0x1000] }
    full.cfg.stackCapacity = some full.stack.length := by decide

/-- One entry, and none. -/
theorem meets_Return :
    busy.stack = 0x1000 :: [] ∧ base.stack = [] := ⟨rfl, rfl⟩

/-- Another core after the call has its stack. -/
theorem meets_CallThenReturn :
    ∃ t u : State, (Instr.call 0x300 = .sys 0x300 ∨ Instr.call 0x300 = .call 0x300) ∧ busy.status = .running ∧
    exec (.call 0x300) busy = .next t ∧ t.status = .running ∧ u.stack = t.stack :=
  ⟨_, { base with stack := [0x202, 0x1000] }, .inr rfl, rfl, rfl, rfl, rfl⟩

theorem meets_CompareSkips :
    let s := bytes [(0x200, 0x50), (0x201, 0x0F)]
    (0x500F : Word).toNat / 4096 = 5 ∧ (0x500F : Word).toNat % 16 ≠ 0 ∧ s.inputs = [] ∧ s.status = .running ∧
      s.fetch = .ok 0x500F := ⟨by decide, by decide, rfl, rfl, rfl⟩

theorem meets_RegistersDiffer :
    (0x9AB1 : Word).toNat / 4096 = 9 ∧ (0x9AB1 : Word).toNat % 16 ≠ 0 := by decide

/-- Key F, and key index 16. -/
theorem meets_KeySkips :
    ((regs [(5, 0xF)]).reg 5).toNat = (0xF : Fin 16).val ∧ 16 ≤ ((regs [(5, 0x10)]).reg 5).toNat ∧
    (Instr.skp 5 = .skp 5 ∨ Instr.skp 5 = .sknp 5) := by decide

/-- A sum of 0xFFFF under the fatal parameter; 0x10000 under wrap; 0x10000 under the fatal parameter. -/
theorem meets_AddToIndex :
    let fatal : State → State := fun s => { s with cfg := { s.cfg with iOverflow := .fatal } }
    let s := regs [(1, 1)] (idx 0xFFFE)
    let u := regs [(1, 1)] (idx 0xFFFF)
    ((fatal s).i.toNat + ((fatal s).reg 1).toNat ≤ 0xFFFF ∨ (fatal s).cfg.iOverflow = .wrap) ∧
    (u.i.toNat + (u.reg 1).toNat ≤ 0xFFFF ∨ u.cfg.iOverflow = .wrap) ∧
    0xFFFF < (fatal u).i.toNat + ((fatal u).reg 1).toNat ∧ (fatal u).cfg.iOverflow = .fatal := by decide

/-- I = 0xFFD stores all three, I = 0xFFE and 0xFFFF fault. -/
theorem meets_DecimalDigits :
    (idx 0xFFD).effAddr 2 < 4096 ∧ 4096 ≤ (idx 0xFFE).effAddr 2 ∧ 4096 ≤ (idx 0xFFFF).effAddr 2 := by decide

/-- I + X = 0xFFF completes. -/
theorem meets_RegistersStored :
    (idx 0xFF0).effAddr (0xF : Reg).val < 4096 ∧ (idx 0xFFF).effAddr (0 : Reg).val < 4096 := by decide

/-- I + X = 0x1000 faults, after 15 registers or after none. -/
theorem meets_RegistersStoredUpToTheFault :
    4096 ≤ (idx 0xFF1).effAddr (0xF : Reg).val ∧ 4096 ≤ (idx 0x1000).effAddr (0 : Reg).val := by decide

theorem meets_RegistersLoaded :
    (idx 0xFF0).effAddr (0xF : Reg).val < 4096 := by decide

theorem meets_RegistersLoadedUpToTheFault :
    4096 ≤ (idx 0xFF1).effAddr (0xF : Reg).val ∧ 4096 ≤ (idx 0x1000).effAddr (0 : Reg).val := by decide

/-- The load starts from other registers. -/
theorem meets_StoreThenLoad :
    let s := regs [(0, 1), (1, 2)] (idx 0xFFE)
    ∃ t u : State, s.status = .running ∧ exec (.ldMemVx 1) s = .next t ∧ t.status = .running ∧ u.mem = t.mem ∧ u.cfg = t.cfg ∧
      u.i = s.i ∧ u.reg 0 ≠ s.reg 0 :=
  ⟨_, { bytes [(0xFFE, 1), (0xFFF, 2)] with i := 0xFFE }, rfl, rfl, rfl, by decide, rfl, rfl, by decide⟩

/-- N = 0 past the memory, and a last byte at 0xFFF. -/
theorem meets_Draw :
    ((0 : Fin 16).val = 0 ∨ (idx 0xFFFF).effAddr (0 : Fin 16).val ≤ 4096) ∧
    ((0xF : Fin 16).val = 0 ∨ (idx 0xFF1).effAddr (0xF : Fin 16).val ≤ 4096) := by decide

/-- A draw that darkens (0, 0), and one that darkens nothing. -/
theorem meets_Collision :
    let s := bytes [(0x300, 0x80), (0x301, 0x40)] { idx 0x300 with fb := dot }
    let u := { s with i := 0x301 }
    (∃ t, exec (.drw 0 0 1) s = .next t ∧ ∃ i j, i < 64 ∧ j < 32 ∧ pixel s.fb i j = true ∧ pixel t.fb i j = false) ∧
    ∃ t, exec (.drw 0 0 1) u = .next t ∧ ∀ i j, i < 64 → j < 32 → pixel u.fb i j = true → pixel t.fb i j = true := by
  refine ⟨⟨_, rfl, 0, 0, by decide⟩, _, rfl, ?_⟩
  have h : ∀ j : Fin 32, ∀ i : Fin 64, pixel dot i j = true → i = 0 ∧ j = 0 := by decide
  intro i j hi hj hp
  obtain ⟨h1, h2⟩ := h ⟨j, hj⟩ ⟨i, hi⟩ hp
  simp only [Fin.ext_iff] at h1 h2
  subst h1 h2
  decide

/-- The last of two bytes at 0x1000. -/
theorem meets_DrawPastTheMemory :
    0 < (2 : Fin 16).val ∧ 4096 < (idx 0xFFF).effAddr (2 : Fin 16).val := by decide

/-- A first draw that lights (0, 0); the second starts from another register file and PC. -/
theorem meets_DrawTwice :
    let s := bytes [(0x300, 0x80)] (idx 0x300)
    ∃ t u : State, ((1 : Fin 16).val = 0 ∨ s.effAddr (1 : Fin 16).val ≤ 4096) ∧ exec (.drw 0 1 1) s = .next t ∧ u.fb = t.fb ∧
      u.reg 0 = s.reg 0 ∧ u.reg 1 = s.reg 1 ∧ u.i = s.i ∧ sameBytes s u ∧
      pixel s.fb 0 0 = false ∧ pixel t.fb 0 0 = true :=
  ⟨_, { regs [(7, 9)] (bytes [(0x300, 0x80)] (idx 0x300)) with fb := dot }, by decide, rfl, by decide, rfl, rfl, rfl,
    fun _ => rfl, by decide, by decide⟩

/-- K = 2 with the largest count, and with a count below K. -/
theorem meets_DelayTimerRead :
    1 ≤ busy.cfg.k ∧ busy.dtTicks ≤ 255 * busy.cfg.k ∧ busy.dtTicks = 508 + busy.cfg.k ∧
    let s := { busy with dtTicks := 1 }
    1 ≤ s.cfg.k ∧ s.dtTicks ≤ 255 * s.cfg.k ∧ s.dtTicks < s.cfg.k := by decide

/-- Key F down alone, keys 3 and 7 down, and no key down. -/
theorem meets_WaitForKey :
    let f := { base with keys := 0x8000 }
    let two := { base with keys := 0x88 }
    (f.keyDown 0xF = true ∧ ∀ j, j < (0xF : Fin 16) → f.keyDown j = false) ∧
    (two.keyDown 3 = true ∧ ∀ j, j < (3 : Fin 16) → two.keyDown j = false) ∧ ∀ k, base.keyDown k = false := by decide

/-- FX15, another instruction, and one that halts. -/
theorem meets_DelayTicks :
    let s := bytes [(0x200, 0xF0), (0x201, 0x15)] (regs [(0, 3)])
    let u := { bytes [(0x200, 0x12), (0x201, 0x00)] with dtTicks := 1 }
    let d := { bytes [(0x200, 0x00), (0x201, 0xEE)] with dtTicks := 1 }
    (s.inputs = [] ∧ s.status = .running ∧ s.fetch = .ok 0xF015 ∧ decode 0xF015 = some (.ldDtVx 0) ∧
      ∃ t, step s = .next t ∧ t.status = .running) ∧
    (u.inputs = [] ∧ u.status = .running ∧ u.fetch = .ok 0x1200 ∧ decode 0x1200 = some (.jp 0x200) ∧
      ∃ t, step u = .next t ∧ t.status = .running ∧ ∀ x, Instr.jp 0x200 ≠ .ldDtVx x) ∧
    (d.inputs = [] ∧ d.status = .running ∧ d.fetch = .ok 0x00EE ∧ decode 0x00EE = some .ret ∧
      ∃ t, step d = .next t ∧ t.status ≠ .running) :=
  ⟨⟨rfl, rfl, rfl, by decide, _, rfl, rfl⟩, ⟨rfl, rfl, rfl, by decide, _, rfl, rfl, fun _ h => Instr.noConfusion h⟩,
    ⟨rfl, rfl, rfl, by decide, _, rfl, by decide⟩⟩

/-- FX18 with Vx = 0, which stops in its own cycle; a jump with one visible frame left at K = 2. -/
theorem meets_SoundStops :
    let s := bytes [(0x200, 0xF4), (0x201, 0x18)]
    let u := { bytes [(0x200, 0x12), (0x201, 0x00)] with
      stTicks := 3, stActive := true, cfg := { base.cfg with clockHz := 120 } }
    (s.inputs = [] ∧ s.status = .running ∧ s.fetch = .ok 0xF418 ∧ decode 0xF418 = some (.ldStVx 4) ∧
      (∃ t, step s = .next t ∧ t.status = .running) ∧
      (∀ x, Instr.ldStVx 4 = .ldStVx x → 0 = (s.reg x).toNat * s.cfg.k ∧ true = true ∧
        [Event.audioStart 0] = s.events ++ [.audioStart (s.reg x)]) ∧ true = true ∧ (0 - 1) / s.cfg.k = 0) ∧
    (u.inputs = [] ∧ u.status = .running ∧ u.fetch = .ok 0x1200 ∧ decode 0x1200 = some (.jp 0x200) ∧
      (∃ t, step u = .next t ∧ t.status = .running) ∧ (∀ x, Instr.jp 0x200 ≠ .ldStVx x) ∧
      0 < (u.stTicks - 1) / u.cfg.k) := by
  refine ⟨⟨rfl, rfl, rfl, by decide, ⟨_, rfl, rfl⟩, ?_, rfl, by decide⟩,
    ⟨rfl, rfl, rfl, by decide, ⟨_, rfl, rfl⟩, fun _ h => Instr.noConfusion h, by decide⟩⟩
  intro x h
  injection h with h
  subst h
  decide

/-- A delay count of 3 and a sound count of 2. -/
theorem meets_SelfJump :
    let s := { bytes [(0x200, 0x12), (0x201, 0x00)] with dtTicks := 3, stTicks := 2, stActive := true }
    s.inputs = [] ∧ s.status = .running ∧ s.pc.toNat = (0x200 : Addr12).toNat ∧ s.fetch = .ok (encode (.jp 0x200)) :=
  ⟨rfl, rfl, by decide, rfl⟩

/-- A running state, and for every kind of the instructions one whose rule raises it. -/
theorem meets_Raises :
    base.status = .running ∧ raisesKind base .stackUnderflow .ret ∧
    raisesKind { busy with stack := [0x202, 0x1000] } .stackOverflow (.call 0x300) ∧
    raisesKind (regs [(5, 0x10)]) .keyIndexOutOfRange (.skp 5) ∧
    raisesKind { regs [(1, 1)] (idx 0xFFFF) with cfg := { base.cfg with iOverflow := .fatal } } .iOverflowFault (.addIVx 1) ∧
    raisesKind (idx 0xFFF) .memOutOfBounds (.drw 0 0 2) :=
  ⟨rfl, ⟨rfl, rfl⟩, ⟨rfl, rfl⟩, ⟨rfl, by decide⟩, ⟨rfl, rfl, by decide⟩, ⟨rfl, by decide, by decide⟩⟩

/-- A store of registers that faults after two bytes, one of digits after one, a load after two registers, with an address
and a register outside the access, and a return that faults. -/
theorem meets_FaultsArePrecise :
    (∃ t f, (idx 0xFFE).status = .running ∧ exec (.ldMemVx 3) (idx 0xFFE) = .next t ∧ t.status = .halted f) ∧
    (∀ k : Reg, k ≤ 3 → (idx 0xFFE).effAddr k.val < 4096 → 0xFFD ≠ (idx 0xFFE).effAddr k.val) ∧
    (∃ t f, (idx 0xFFF).status = .running ∧ exec (.ldBVx 0) (idx 0xFFF) = .next t ∧ t.status = .halted f) ∧
    (∀ k, k < 3 → (idx 0xFFF).effAddr k < 4096 → 0xFFE ≠ (idx 0xFFF).effAddr k) ∧
    (∃ t f, (idx 0xFFE).status = .running ∧ exec (.ldVxMem 3) (idx 0xFFE) = .next t ∧ t.status = .halted f) ∧
    ¬((2 : Reg) ≤ 3 ∧ (idx 0xFFE).effAddr (2 : Reg).val < 4096) ∧
    (∃ t f, base.status = .running ∧ exec .ret base = .next t ∧ t.status = .halted f) ∧
    (∀ x, Instr.ret ≠ .ldVxMem x) ∧ ¬writesMemory .ret :=
  ⟨⟨_, _, rfl, rfl, rfl⟩, by decide, ⟨_, _, rfl, rfl, rfl⟩, by decide, ⟨_, _, rfl, rfl, rfl⟩, by decide,
    ⟨_, _, rfl, rfl, rfl⟩, fun _ h => Instr.noConfusion h, by simp [writesMemory]⟩

/-- A load of V0..V3 and V4; an add and a register it does not name. -/
theorem meets_RegistersChange :
    (∃ t, exec (.ldVxMem 3) base = .next t ∧ ¬writesReg (.ldVxMem 3) 4) ∧
    ∃ t, exec (.addVxVy 1 2) base = .next t ∧ ¬writesReg (.addVxVy 1 2) 2 :=
  ⟨⟨_, rfl, by simp [writesReg]⟩, _, rfl, by simp [writesReg, flagReg]⟩

/-- An instruction that meets every clause at once, and the clauses met by writers of the other elements. -/
theorem meets_SpecialState :
    (∃ t, exec (.ldVxNn 0 5) busy = .next t) ∧ ¬writesIndex (.ldVxNn 0 5) ∧ ¬writesStack (.ldVxNn 0 5) ∧
    ¬writesDisplay (.ldVxNn 0 5) ∧ ¬writesMemory (.ldVxNn 0 5) ∧ (∀ x, Instr.ldVxNn 0 5 ≠ .ldDtVx x) ∧
    (∀ x, Instr.ldVxNn 0 5 ≠ .ldStVx x) ∧ ∀ x nn, Instr.ldVxNn 0 5 ≠ .rnd x nn :=
  ⟨⟨_, rfl⟩, by simp [writesIndex], by simp [writesStack], by simp [writesDisplay],
    by simp [writesMemory], fun _ h => Instr.noConfusion h, fun _ h => Instr.noConfusion h,
    fun _ _ h => Instr.noConfusion h⟩

theorem busy_memory : memoryCanonical busy := by
  have h : Memory.wf busy.cfg [(0x200, 0xF4), (0x201, 0x18)] := by
    refine ⟨by simp, fun p hp => ?_⟩
    simp only [List.mem_cons, List.not_mem_nil, or_false] at hp
    rcases hp with rfl | rfl <;> decide
  exact h

theorem busy_control : controlBounds busy := by
  unfold controlBounds
  simp [busy, base, State.reset]

theorem busy_steps : ∃ t, step busy = .next t := ⟨_, rfl⟩

/-- A step from a state that meets every invariant and is not the reset state: a frame and a key change land, then FX18
runs. -/
theorem meets_Invariants :
    (∃ t, step busy = .next t) ∧ memoryCanonical busy ∧ controlBounds busy ∧ depthBound busy ∧ timerBounds busy ∧
    haltedRecordFits busy ∧ audioOrder busy := by
  refine ⟨busy_steps, busy_memory, busy_control, ?_,
    ⟨show 510 ≤ 255 * 2 by decide, show 2 ≤ 255 * 2 by decide, by decide⟩, ?_, ?_, fun _ => rfl⟩
  · intro c h
    injection h with h
    subst h
    decide
  · intro f h
    exact absurd h (by simp [busy, base, State.reset])
  · intro b a h
    exfalso
    rcases b with _ | ⟨e, b⟩
    · simp [busy, base] at h
    · simp [busy, base] at h

/-- A halted state whose record fits. -/
theorem meets_KeepsTheFaultRecord :
    (∃ t, step dead = .next t) ∧ haltedRecordFits dead := by
  refine ⟨⟨_, rfl⟩, ?_⟩
  intro f h
  injection h with h
  subst h
  simp [recordFits, fatalRecord, dead, base, State.reset]

/-- A state halted by the fetch at PC = 4095, whose record has no opcode; the same record with PC = 0x200 does not fit. -/
theorem meets_KeepsTheFaultRecord_fetch :
    let f := fatalRecord .memOutOfBounds 0xFFF none (some 4096) none
    let s := { base with pc := 0xFFF, status := .halted f }
    (∃ t, step s = .next t) ∧ haltedRecordFits s ∧
      ¬recordFits (fatalRecord .memOutOfBounds 0x200 none (some 4096) none) 0x200 := by
  refine ⟨⟨_, rfl⟩, ?_, ?_⟩
  · intro f h
    injection h with h
    subst h
    simp [recordFits, fatalRecord]
  · simp [recordFits, fatalRecord]

theorem meets_ResetInvariants :
    ∃ t, Inv { base with pc := 0x300 } ∧ ({ base with pc := 0x300 } : State).boot [0x12, 0x00] = some t := by
  refine ⟨_, ⟨by decide, ⟨List.Pairwise.nil, fun _ h => absurd h (by simp [base, State.reset])⟩,
    ⟨show (0x300 : Word).toNat ≤ 0x10FE by decide, fun _ h => absurd h (by simp [base, State.reset])⟩,
    fun _ h => absurd h (by simp [base, State.reset, Config.default]), ⟨Nat.zero_le _, Nat.zero_le _, by decide⟩,
    fun _ h => absurd h (by simp [base, State.reset]), fun b a h => ?_,
    fun h => absurd h (by simp [base, State.reset])⟩, rfl⟩
  simp [base, State.reset] at h

end Sys2Proof.Tests
end

section
/-!
PROOFS. The fetch (spec/20_memory.md R63): the word it reads, and the halt of a core whose fetch reaches past the memory.
-/

namespace Sys2Proof.Machine

variable (s : State)

/-- The fetched word as a number: the byte at PC is the high one (R63). -/
theorem State.fetch_bigEndian (h : s.pc.toNat < 4095) : ∃ w, s.fetch = .ok w ∧
    w.toNat = 256 * (s.byteAt s.pc.toNat).toNat + (s.byteAt (s.pc.toNat + 1)).toNat :=
  ⟨_, s.fetch_ok (show s.pc.toNat + 1 < 4096 by omega), by rw [joinBytes_toNat, Nat.mul_comm]⟩

/-- At the last byte of memory the low byte is the one out of bounds (R63). -/
theorem State.fetch_lastByte (h : s.pc.toNat = 4095) : s.fetch = .error 4096 := by
  rw [s.fetch_error (show 4096 ≤ s.pc.toNat + 1 by omega), h]
  rfl

/-- Past the memory the high byte is already out of bounds (R63). -/
theorem State.fetch_pastMemory (h : 4096 ≤ s.pc.toNat) : s.fetch = .error s.pc.toNat := by
  rw [s.fetch_error (show 4096 ≤ s.pc.toNat + 1 by omega)]
  exact congrArg _ (Nat.max_eq_left h)

/-- The step of a running core whose fetch fails, where no host event is due (R120, R302). -/
theorem step_fetchError {a : Nat} (hin : s.inputs = []) (hr : s.status = .running) (ha : s.fetch = .error a) :
    step s = .next (fetchHalt s a) := by
  rw [step_of_noInputs s hin, cycle_fetchError s hr ha]

/-- Settles O7: the word and the two out-of-bounds cases from the equations of `State.fetch`, the halt from the step's. -/
theorem fetchReadsTwoBytesBigEndian : Obligations.FetchReadsTwoBytesBigEndian := by
  intro s
  exact ⟨s.fetch_bigEndian, s.fetch_lastByte, s.fetch_pastMemory, fun _ hin hr ha => step_fetchError s hin hr ha⟩

end Sys2Proof.Machine
end

section
/-!
PROOFS. The jumps and the return (spec/41_control_transfer.md R140, R142, R144): where PC stands after them, their frame, and
the fault that a PC past the memory meets at the next fetch.
-/

namespace Sys2Proof.Machine

variable (s : State)

/-- The fetch alone checks PC against the memory (R63), so this holds of every state an instruction leaves. -/
theorem faultsAtNextFetch_all : faultsAtNextFetch s :=
  fun h => s.fetch_error (show 4096 ≤ s.pc.toNat + 1 by omega)

/-- A jump changes PC alone. -/
theorem onlyPc_setPc (target : Word) : onlyPc s (s.setPc target) :=
  ⟨rfl, s.setPc_reg target, s.setPc_byteAt target⟩

theorem exec_jp (nnn : Addr12) : exec (.jp nnn) s = .next (s.setPc (zextAddr nnn)) := rfl

theorem exec_jpV0 (nnn : Addr12) :
    exec (.jpV0 nnn) s = .next (s.setPc (BitVec.ofNat 16 ((s.reg 0).toNat + nnn.toNat))) := rfl

theorem exec_ret : exec .ret s = execRet s := rfl

/-- A byte and a 12-bit address sum to at most 0xFF + 0xFFF, so the target of BNNN does not wrap (R144). -/
theorem jpV0_target_toNat (v : Byte) (nnn : Addr12) :
    (BitVec.ofNat 16 (v.toNat + nnn.toNat)).toNat = v.toNat + nnn.toNat := by
  have hv := v.isLt
  have hn := nnn.isLt
  rw [BitVec.toNat_ofNat, Nat.mod_eq_of_lt (by omega)]

/-- Settles O20: both jumps are `setPc`, and neither target wraps at 16 bits. -/
theorem jumpResults : Obligations.JumpResults := by
  intro s nnn
  constructor
  · exact ⟨_, exec_jp s nnn, zextAddr_toNat nnn, onlyPc_setPc s _, faultsAtNextFetch_all _⟩
  · exact ⟨_, exec_jpV0 s nnn, jpV0_target_toNat (s.reg 0) nnn, onlyPc_setPc s _, faultsAtNextFetch_all _⟩

/-- Settles O22: the two equations of `execRet`, for a stack with an entry and for an empty one. -/
theorem returnPopsIntoPc : Obligations.ReturnPopsIntoPc := by
  intro s
  constructor
  · intro v rest h
    exact ⟨_, (exec_ret s).trans (execRet_cons s h), rfl, rfl, rfl, fun _ => rfl, fun _ => rfl,
      faultsAtNextFetch_all _⟩
  · intro h
    exact (exec_ret s).trans (execRet_nil s h)

end Sys2Proof.Machine
end

section
/-!
PROOFS. The compare skips (spec/42_skips.md R160 to R162): where PC stands after one, its frame, and the invalid words of
family 5.
-/

namespace Sys2Proof

variable {w : Word}

theorem fieldN_eq_zero : fieldN w = 0 ↔ w.toNat % 16 = 0 := Fin.ext_iff

theorem decode_family5 (hop : fieldOp w = 5) :
    decode w = if fieldN w = 0 then some (.seVxVy (fieldX w) (fieldY w)) else none := by
  simp only [decode, hop]

/-- The one row of family 5 is 5XY0 (R93, R162). -/
theorem decode_family5_invalid (hop : fieldOp w = 5) (hn : w.toNat % 16 ≠ 0) : decode w = none := by
  rw [decode_family5 hop, if_neg (mt fieldN_eq_zero.mp hn)]

end Sys2Proof

namespace Sys2Proof.Machine

variable (s : State)

theorem exec_seVxNn (x : Reg) (nn : Byte) : exec (.seVxNn x nn) s = .next (s.skipIf (s.reg x == nn)) := rfl

theorem exec_sneVxNn (x : Reg) (nn : Byte) : exec (.sneVxNn x nn) s = .next (s.skipIf (s.reg x != nn)) := rfl

theorem exec_seVxVy (x y : Reg) : exec (.seVxVy x y) s = .next (s.skipIf (s.reg x == s.reg y)) := rfl

/-- `skipIf` tests a Boolean, the rules of the skips a proposition. -/
theorem skipIf_pc_of_iff {c : Bool} {p : Prop} [Decidable p] (hc : c = true ↔ p) :
    (s.skipIf c).pc = if p then s.pc + 4 else s.pc + 2 := by
  rw [s.skipIf_pc, if_congr hc rfl rfl]

/-- A skip, taken or not, is a jump. -/
theorem onlyPc_skipIf (c : Bool) : onlyPc s (s.skipIf c) := onlyPc_setPc s _

/-- What an instruction that is a skip on p does, whichever comparison p is. -/
theorem exec_skip {i : Instr} {c : Bool} {p : Prop} [Decidable p] (he : exec i s = .next (s.skipIf c))
    (hc : c = true ↔ p) :
    ∃ t, exec i s = .next t ∧ t.pc = (if p then s.pc + 4 else s.pc + 2) ∧ onlyPc s t ∧ faultsAtNextFetch t :=
  ⟨_, he, skipIf_pc_of_iff s hc, onlyPc_skipIf s c, faultsAtNextFetch_all _⟩

/-- The step of a running core that fetches an invalid word, where no host event is due (R120, R302). -/
theorem step_invalid {w : Word} (hin : s.inputs = []) (hr : s.status = .running) (hw : s.fetch = .ok w)
    (hd : decode w = none) : step s = .next (decodeHalt s w) := by
  rw [step_of_noInputs s hin, cycle_invalid s hr hw hd]

/-- Settles O24: each skip is `skipIf` of its comparison; a 5XYn word with n not 0 has no row in family 5. -/
theorem compareSkips : Obligations.CompareSkips := by
  intro s x y nn
  refine ⟨exec_skip s (exec_seVxNn s x nn) beq_iff_eq, exec_skip s (exec_sneVxNn s x nn) bne_iff_ne,
    exec_skip s (exec_seVxVy s x y) beq_iff_eq, ?_⟩
  intro w hop hn
  have hd : decode w = none := decode_family5_invalid hop hn
  exact ⟨hd, fun hin hr hw => step_invalid s hin hr hw hd⟩

end Sys2Proof.Machine
end

section
/-!
PROOFS. The register loads and the arithmetic of the ALU (spec/43_alu.md R181 to R183, R187, R188, R190, R193): what a
written register, and a written (result, flag) pair, leave in the state, and the results and flags as numbers.
-/

namespace Sys2Proof.Machine

variable (s : State)

/-! Writes, each with the plain advance (R122, R193). -/

theorem wroteReg_setReg_advance (x : Reg) (v : Byte) : wroteReg s (s.setReg x v).advance x v := by
  refine ⟨?_, fun r hr => ?_, rfl, rfl, fun _ => rfl⟩
  · rw [State.advance_reg, State.setReg_reg, if_pos rfl]
  · rw [State.advance_reg, State.setReg_reg, if_neg hr]

/-- The flag is written last, so the result is promised only of a destination other than VF (R193). -/
theorem wroteResultFlag_setResultFlag_advance (x : Reg) {p : Byte × Bool} {f : Bool} (hf : p.2 = f) :
    wroteResultFlag s (s.setResultFlag x p).advance x p.1 f := by
  refine ⟨fun hx => ?_, ?_, fun r hr hrf => ?_, rfl, rfl, fun _ => rfl⟩
  · rw [State.advance_reg, State.setResultFlag_reg, if_neg hx, if_pos rfl]
  · rw [State.advance_reg, State.setResultFlag_reg, if_pos rfl, hf]
    rfl
  · rw [State.advance_reg, State.setResultFlag_reg, if_neg hrf, if_neg hr]

/-! The meanings as writes. -/

theorem exec_ldVxNn (x : Reg) (nn : Byte) : exec (.ldVxNn x nn) s = .next (s.setReg x nn).advance := rfl

theorem exec_addVxNn (x : Reg) (nn : Byte) : exec (.addVxNn x nn) s = .next (s.setReg x (s.reg x + nn)).advance := rfl

theorem exec_ldVxVy (x y : Reg) : exec (.ldVxVy x y) s = .next (s.setReg x (s.reg y)).advance := rfl

theorem exec_addVxVy (x y : Reg) :
    exec (.addVxVy x y) s = .next (s.setResultFlag x (addPair (s.reg x) (s.reg y))).advance := rfl

theorem exec_sub (x y : Reg) :
    exec (.sub x y) s = .next (s.setResultFlag x (subPair (s.reg x) (s.reg y))).advance := rfl

theorem exec_subn (x y : Reg) :
    exec (.subn x y) s = .next (s.setResultFlag x (subPair (s.reg y) (s.reg x))).advance := rfl

/-! Results and flags as numbers. -/

theorem addPair_fst_toNat (a b : Byte) : (addPair a b).1.toNat = (a.toNat + b.toNat) % 256 := BitVec.toNat_ofNat ..

theorem addPair_snd (a b : Byte) : (addPair a b).2 = decide (a.toNat + b.toNat > 255) := rfl

/-- The byte difference is the integer difference modulo 256, also where it borrows. -/
theorem subPair_fst_toNat (a b : Byte) : ((subPair a b).1.toNat : Int) = ((a.toNat : Int) - b.toNat) % 256 := by
  have hb := b.isLt
  have hsub : (subPair a b).1.toNat = (256 - b.toNat + a.toNat) % 256 := BitVec.toNat_sub a b
  omega

theorem subPair_snd (a b : Byte) : (subPair a b).2 = decide (a.toNat ≥ b.toNat) := rfl

/-- The byte sum is the sum modulo 256, the carry discarded (R182). -/
theorem byte_add_eq_ofNat (a b : Byte) : a + b = BitVec.ofNat 8 ((a.toNat + b.toNat) % 256) := by
  apply BitVec.eq_of_toNat_eq
  rw [BitVec.toNat_add, BitVec.toNat_ofNat, Nat.mod_mod]

/-- Settles O17: the three instructions write a pair, `addPair` or `subPair`, of the operands before. -/
theorem addSubtractResultsAndFlags : Obligations.AddSubtractResultsAndFlags := by
  intro s x y a b
  refine ⟨⟨_, _, exec_addVxVy s x y, addPair_fst_toNat _ _, ?_⟩, ⟨_, _, exec_sub s x y, subPair_fst_toNat _ _, ?_⟩,
    ⟨_, _, exec_subn s x y, subPair_fst_toNat _ _, ?_⟩⟩
  · exact wroteResultFlag_setResultFlag_advance s x (addPair_snd _ _)
  · exact wroteResultFlag_setResultFlag_advance s x (subPair_snd _ _)
  · exact wroteResultFlag_setResultFlag_advance s x (subPair_snd _ _)

/-- Settles O15: the three instructions write one register; the byte sum of 7XNN is the sum modulo 256. -/
theorem loadAndImmediateResults : Obligations.LoadAndImmediateResults := by
  intro s x y nn
  refine ⟨⟨_, exec_ldVxNn s x nn, ?_⟩, ⟨_, exec_addVxNn s x nn, ?_⟩, ⟨_, exec_ldVxVy s x y, ?_⟩⟩
  · exact wroteReg_setReg_advance s x nn
  · exact byte_add_eq_ofNat (s.reg x) nn ▸ wroteReg_setReg_advance s x _
  · exact wroteReg_setReg_advance s x (s.reg y)

end Sys2Proof.Machine
end

section
/-!
PROOFS. The index register and the memory reached through it (spec/44_memory_index.md R210, R213): ANNN, and the decimal
digits FX33 stores, up to the first address past the memory.
-/

namespace Sys2Proof.Machine

variable (s : State)

theorem exec_ldI (nnn : Addr12) : exec (.ldI nnn) s = .next (s.setI (zextAddr nnn)).advance := rfl

/-- Settles O27: ANNN is `setI` with the plain advance, and zero extension keeps the number. -/
theorem loadIndexResult : Obligations.LoadIndexResult := by
  intro s nnn
  exact ⟨_, exec_ldI s nnn, zextAddr_toNat nnn, rfl, rfl, fun _ => rfl, fun _ => rfl⟩

/-! Bytes stored from I on (R64, R69, R70). -/

/-- Each byte whose own address is inside the memory is stored, whether or not a later one is. -/
theorem State.storeBytes_byteAt_effAddr {bs : List Byte} {k : Nat} (hk : k < bs.length) (ha : s.effAddr k < memSize) :
    (s.storeBytes (s.effAddr 0) bs).1.byteAt (s.effAddr k) = bs[k] := by
  have hin : s.effAddr 0 ≤ s.effAddr k ∧ s.effAddr k < s.effAddr 0 + bs.length ∧ s.effAddr k < memSize :=
    ⟨Nat.add_le_add_left (Nat.zero_le k) _, Nat.add_lt_add_left hk _, ha⟩
  have hidx : s.effAddr k - s.effAddr 0 = k := Nat.add_sub_cancel_left _ _
  simp only [State.storeBytes_byteAt, dif_pos hin, hidx]

/-- An address that is none of those stored to keeps its byte. -/
theorem State.storeBytes_byteAt_other {bs : List Byte} {a : Nat}
    (ha : ∀ k, k < bs.length → s.effAddr k < memSize → a ≠ s.effAddr k) :
    (s.storeBytes (s.effAddr 0) bs).1.byteAt a = s.byteAt a := by
  rw [State.storeBytes_byteAt, dif_neg]
  rintro ⟨hlow, hhigh, hmem⟩
  have hat : s.effAddr (a - s.effAddr 0) = a := Nat.add_sub_cancel' hlow
  exact ha (a - s.effAddr 0) (by omega) (hat.symm ▸ hmem) hat.symm

/-! The digits of FX33 (R213). -/

/-- Decimal digit k of a byte's value, the hundreds first. -/
def decimalDigit (v k : Nat) : Nat := if k = 0 then v / 100 else if k = 1 then v / 10 % 10 else v % 10

theorem bcdDigits_getElem_toNat (v : Byte) {k : Nat} (hk : k < (bcdDigits v).length) :
    (bcdDigits v)[k].toNat = decimalDigit v.toNat k := by
  have hv := v.isLt
  match k, hk with
  | 0, _ => exact (BitVec.toNat_ofNat ..).trans (Nat.mod_eq_of_lt (by omega))
  | 1, _ => exact (BitVec.toNat_ofNat ..).trans (Nat.mod_eq_of_lt (by omega))
  | 2, _ => exact (BitVec.toNat_ofNat ..).trans (Nat.mod_eq_of_lt (by omega))

theorem storeDigits_byteAt_toNat (v : Byte) {k : Nat} (hk : k < 3) (ha : s.effAddr k < memSize) :
    ((s.storeBytes (s.effAddr 0) (bcdDigits v)).1.byteAt (s.effAddr k)).toNat = decimalDigit v.toNat k := by
  have hlen : k < (bcdDigits v).length := (bcdDigits_length v).symm ▸ hk
  rw [s.storeBytes_byteAt_effAddr hlen ha, bcdDigits_getElem_toNat]

/-- FX33 with its three addresses inside the memory. -/
theorem exec_ldBVx_ok {x : Reg} (h : s.effAddr 2 < memSize) :
    exec (.ldBVx x) s = .next (s.storeBytes (s.effAddr 0) (bcdDigits (s.reg x))).1.advance :=
  (execLdBVx_eq s x).trans (by rw [if_pos h])

/-- FX33 that reaches past the memory. -/
theorem exec_ldBVx_error {x : Reg} (h : memSize ≤ s.effAddr 2) :
    exec (.ldBVx x) s = .next ((s.storeBytes (s.effAddr 0) (bcdDigits (s.reg x))).1.halt .memOutOfBounds
      (some (encode (.ldBVx x))) (some (max s.i.toNat memSize)) none) :=
  (execLdBVx_eq s x).trans (by rw [if_neg (Nat.not_lt.2 h)])

/-- Settles O30: both ends of FX33 are the store of the digits, with the advance or with the halt; the store writes the
addresses inside the memory alone. -/
theorem decimalDigitsStored : Obligations.DecimalDigitsStored := by
  intro s x v digit
  have hframe := s.storeBytes_frame (s.effAddr 0) (bcdDigits (s.reg x))
  constructor
  · intro h
    have hmem : ∀ k, k < 3 → s.effAddr k < memSize := fun k hk =>
      Nat.lt_of_le_of_lt (Nat.add_le_add_left (Nat.le_of_lt_succ hk) _) h
    refine ⟨_, exec_ldBVx_ok s h, fun k hk => ?_, fun a ha => ?_, ?_, ?_, fun r => ?_⟩
    · exact storeDigits_byteAt_toNat s (s.reg x) hk (hmem k hk)
    · exact s.storeBytes_byteAt_other fun k hk _ => ha k hk
    · rw [hframe]; rfl
    · rw [hframe]; rfl
    · rw [hframe]; rfl
  · intro h
    refine ⟨_, exec_ldBVx_error s h, ?_, fun k hk ha => ?_, fun a ha => ?_, ?_⟩
    · rw [hframe]; rfl
    · exact storeDigits_byteAt_toNat s (s.reg x) hk ha
    · exact s.storeBytes_byteAt_other ha
    · rw [hframe]; rfl

end Sys2Proof.Machine
end

section
/-!
PROOFS. The display instructions (spec/45_display.md R230, R231, R233): the cleared screen, and the flag of a draw as what
the screens before and after it say.
-/

namespace Sys2Proof.Machine

variable (s : State)

theorem exec_cls : exec .cls s = .next (s.redraw blankScreen).advance := rfl

/-- Settles O36: CLS is `redraw` of the blank screen with the plain advance, and neither touches a register or the memory. -/
theorem clearScreenResult : Obligations.ClearScreenResult := by
  intro s
  exact ⟨_, exec_cls s, fun i j _ _ => pixel_blank i j, rfl, rfl, rfl, fun _ => rfl, fun _ => rfl⟩

/-! The collision result (R233). -/

/-- The collision result seen on the screen alone: since a 1 bit inverts its pixel, a lit pixel is covered by one exactly
where it is dark after. -/
theorem collision_draw_iff_wentDark (x y : Nat) (bytes : List Byte) (fb : FrameBuffer) :
    (draw x y bytes fb).2 = true ↔
      ∃ i j, i < 64 ∧ j < 32 ∧ pixel fb i j = true ∧ pixel (draw x y bytes fb).1 i j = false := by
  rw [collision_draw]
  refine exists₂_congr fun i j => and_congr_right fun hi => and_congr_right fun hj => and_congr_right fun hlit => ?_
  rw [pixel_draw x y bytes fb hi hj, hlit, Bool.true_xor, Bool.not_eq_false']

/-- What DXYN leaves where the draw answers d: the new screen, and the collision result in VF. -/
def State.drawn (d : FrameBuffer × Bool) : State := ((s.redraw d.1).setReg flagReg (flagByte d.2)).advance

@[simp] theorem State.drawn_fb (d : FrameBuffer × Bool) : (s.drawn d).fb = d.1 := rfl

@[simp] theorem State.drawn_flag (d : FrameBuffer × Bool) : (s.drawn d).reg flagReg = flagByte d.2 := by
  rw [State.drawn, State.advance_reg, State.setReg_reg, if_pos rfl]

/-- DXYN with its bytes inside the memory. -/
theorem exec_drw_ok {x y : Reg} {n : Fin 16} (h : n.val = 0 ∨ s.effAddr n.val ≤ memSize) : exec (.drw x y n) s =
    .next (s.drawn (draw (s.reg x).toNat (s.reg y).toNat (bytesFrom s (s.effAddr 0) n.val) s.fb)) := execDrw_ok s h

/-- Settles O38: VF is the collision result, and that is 1 exactly where a pixel went dark. -/
theorem collisionIffAPixelWentDark : Obligations.CollisionIffAPixelWentDark := by
  intro s x y n h
  have hiff := collision_draw_iff_wentDark (s.reg x).toNat (s.reg y).toNat (bytesFrom s (s.effAddr 0) n.val) s.fb
  refine ⟨_, exec_drw_ok s h, fun hdark => ?_, fun hlit => ?_⟩
  · rw [State.drawn_flag, hiff.2 hdark]
    rfl
  · rw [State.drawn_flag, Bool.eq_false_iff.2 (mt hiff.1 ?_)]
    · rfl
    · rintro ⟨i, j, hi, hj, hbefore, hafter⟩
      exact Bool.false_ne_true (hafter.symm.trans (hlit i j hi hj hbefore))

end Sys2Proof.Machine
end

section
/-!
PROOFS. The read of the delay timer (spec/46_timers_input.md R250): the visible delay count, and that a byte holds it.
-/

namespace Sys2Proof.Machine

variable (s : State)

theorem exec_ldVxDt (x : Reg) :
    exec (.ldVxDt x) s = .next (s.setReg x (BitVec.ofNat 8 s.delayCount)).advance := rfl

/-! The visible delay count (R26, R250). -/

theorem State.delayCount_le (h : s.dtTicks ≤ 255 * s.cfg.k) : s.delayCount ≤ 255 :=
  Nat.div_le_of_le_mul (Nat.mul_comm 255 _ ▸ h)

theorem State.delayCount_eq_zero (h : s.dtTicks < s.cfg.k) : s.delayCount = 0 := Nat.div_eq_of_lt h

/-- K ticks more show as one more. -/
theorem State.delayCount_succ {d : Nat} (hk : 1 ≤ s.cfg.k) (h : s.dtTicks = d + s.cfg.k) :
    s.delayCount = d / s.cfg.k + 1 := by
  rw [State.delayCount, h, Nat.add_div_right d hk]

/-- Within the bound of DT_TICKS the byte FX07 writes is the count itself, nothing cut off. -/
theorem delayByte_toNat (h : s.dtTicks ≤ 255 * s.cfg.k) : (BitVec.ofNat 8 s.delayCount).toNat = s.delayCount :=
  (BitVec.toNat_ofNat ..).trans (Nat.mod_eq_of_lt (Nat.lt_succ_of_le (s.delayCount_le h)))

/-- Settles O41: FX07 writes the delay count as a byte, and the bound of DT_TICKS is what makes it fit. -/
theorem delayTimerRead : Obligations.DelayTimerRead := by
  intro s x
  refine ⟨_, _, exec_ldVxDt s x, wroteReg_setReg_advance s x _, fun hk hbound => ?_⟩
  have hbyte := delayByte_toNat s hbound
  refine ⟨hbyte, s.delayCount_le hbound, fun hlow => ?_, fun d hd => ?_⟩
  · exact congrArg (BitVec.ofNat 8) (s.delayCount_eq_zero hlow)
  · rw [hbyte, s.delayCount_succ hk hd]

end Sys2Proof.Machine
end

section
/-!
PROOFS. Reset with a ROM (spec/70_reset_and_hazards.md R341): where the bytes of the image are in the memory it leaves.
-/

namespace Sys2Proof.Machine

/-- The image is in memory in order, byte j at base + j, whatever memory it was placed in (R341). -/
theorem Memory.read_placeRom_offset (c : Config) (base : Nat) (rom : List Byte) (m : Memory) {j : Nat}
    (h : j < rom.length) : Memory.read c (Memory.placeRom c base rom m) (base + j) = rom[j] := by
  have hplaced : base ≤ base + j ∧ base + j < base + rom.length := by omega
  rw [Memory.read_placeRom, dif_pos hplaced]
  simp only [Nat.add_sub_cancel_left]

/-- Settles O12: the memory after an accepted reset is the image placed at 0x200. -/
theorem romBytesLoadVerbatim : Obligations.RomBytesLoadVerbatim := by
  intro s rom hpos hmax
  exact ⟨_, s.boot_some ⟨hpos, hmax⟩, fun _ hj => Memory.read_placeRom_offset s.cfg romBase rom [] hj⟩

end Sys2Proof.Machine
end

section
/-!
PROOFS. The encoding (spec/30_encoding.md R90 to R94, R99): what the decoder answers for each family, the round trip
in both directions, and the invalid words.
-/

namespace Sys2Proof

section Families

variable {w : Word}

theorem decode_family0 (h : fieldOp w = 0x0) : decode w = some (decodeFamily0 w) := by simp only [decode, h]
theorem decode_family8 (h : fieldOp w = 0x8) : decode w = decodeFamily8 w := by simp only [decode, h]
theorem decode_familyE (h : fieldOp w = 0xE) : decode w = decodeFamilyE w := by simp only [decode, h]
theorem decode_familyF (h : fieldOp w = 0xF) : decode w = decodeFamilyF w := by simp only [decode, h]

theorem fieldOp_lt (w : Word) : fieldOp w < 16 := by
  have := w.isLt
  unfold fieldOp; omega

end Families

/-! The rows with a function selector. -/

theorem decode_row8 (x y : Reg) (n : Fin 16) : decode (wordXYN 0x8 x y n) = decodeFamily8 (wordXYN 0x8 x y n) :=
  decode_family8 (fieldOp_wordXYN (by decide) x y n)

theorem decode_rowE (x : Reg) (nn : Byte) : decode (wordXNN 0xE x nn) = decodeFamilyE (wordXNN 0xE x nn) :=
  decode_familyE (fieldOp_wordXNN (by decide) x nn)

theorem decode_rowF (x : Reg) (nn : Byte) : decode (wordXNN 0xF x nn) = decodeFamilyF (wordXNN 0xF x nn) :=
  decode_familyF (fieldOp_wordXNN (by decide) x nn)

/-- A SYS word with an allowed target is none of the two exact words of family 0 (R93, R141). -/
theorem decode_sys {nnn : Addr12} (h : sysTargetOk nnn = true) : decode (wordNNN 0x0 nnn) = some (.sys nnn) := by
  obtain ⟨hcls, hret⟩ : nnn ≠ 0x0E0 ∧ nnn ≠ 0x0EE := by simpa [sysTargetOk] using h
  have hfield := fieldNNN_wordNNN (op := 0x0) (by decide) nnn
  have hcls' : wordNNN 0x0 nnn ≠ 0x00E0 := fun e => hcls (by rw [← hfield, e]; rfl)
  have hret' : wordNNN 0x0 nnn ≠ 0x00EE := fun e => hret (by rw [← hfield, e]; rfl)
  rw [decode_family0 (fieldOp_wordNNN (by decide) nnn), decodeFamily0, if_neg hcls', if_neg hret', hfield]

/-- Settles O1: the fields of an encoded word are the operands placed in it, so the word's family gives the row
back. -/
theorem decodeOfEncodeIsTheInstruction : Obligations.DecodeOfEncodeIsTheInstruction := by
  intro i hi
  cases i with
  | cls => rfl
  | ret => rfl
  | sys nnn => exact decode_sys hi
  | jp | call | ldI | jpV0 =>
    simp [encode, fieldOp_wordNNN, fieldNNN_wordNNN, decode]
  | seVxNn | sneVxNn | ldVxNn | addVxNn | rnd =>
    simp [encode, fieldOp_wordXNN, fieldX_wordXNN, fieldNN_wordXNN, decode]
  | seVxVy | sneVxVy | drw =>
    simp [encode, fieldOp_wordXYN, fieldX_wordXYN, fieldY_wordXYN, fieldN_wordXYN, decode]
  | ldVxVy | or | and | xor | addVxVy | sub | shr | subn | shl =>
    simp [encode, decode_row8, decodeFamily8, fieldX_wordXYN, fieldY_wordXYN, fieldN_wordXYN]
  | skp | sknp => simp [encode, decode_rowE, decodeFamilyE, fieldX_wordXNN, fieldNN_wordXNN]
  | ldVxDt | ldVxK | ldDtVx | ldStVx | addIVx | ldFVx | ldBVx | ldMemVx | ldVxMem =>
    simp [encode, decode_rowF, decodeFamilyF, fieldX_wordXNN, fieldNN_wordXNN]

/-! A word is the encoding of its own fields, in each format (R90). -/

theorem wordNNN_of_fields {w : Word} {op : Nat} (hop : fieldOp w = op) : wordNNN op (fieldNNN w) = w :=
  hop ▸ wordNNN_fields w

theorem wordXNN_of_fields {w : Word} {op : Nat} {nn : Byte} (hop : fieldOp w = op) (hnn : fieldNN w = nn) :
    wordXNN op (fieldX w) nn = w := hop ▸ hnn ▸ wordXNN_fields w

theorem wordXYN_of_fields {w : Word} {op : Nat} {n : Fin 16} (hop : fieldOp w = op) (hn : fieldN w = n) :
    wordXYN op (fieldX w) (fieldY w) n = w := hop ▸ hn ▸ wordXYN_fields w

/-- The instruction i is well formed and w is its word. -/
def IsWordOf (w : Word) (i : Instr) : Prop := i.wf = true ∧ encode i = w

theorem isWordOf_family0 {w : Word} (hop : fieldOp w = 0x0) : IsWordOf w (decodeFamily0 w) := by
  unfold decodeFamily0
  split_ifs with hcls hret
  · exact ⟨rfl, hcls.symm⟩
  · exact ⟨rfl, hret.symm⟩
  · have hw : wordNNN 0x0 (fieldNNN w) = w := wordNNN_of_fields hop
    have hcls' : fieldNNN w ≠ 0x0E0 := fun e => hcls (by rw [← hw, e]; rfl)
    have hret' : fieldNNN w ≠ 0x0EE := fun e => hret (by rw [← hw, e]; rfl)
    exact ⟨Bool.and_eq_true_iff.2 ⟨bne_iff_ne.2 hcls', bne_iff_ne.2 hret'⟩, hw⟩

theorem isWordOf_family8 {w : Word} {i : Instr} (hop : fieldOp w = 0x8) (h : decodeFamily8 w = some i) :
    IsWordOf w i := by
  unfold decodeFamily8 at h
  split at h <;> cases h <;> exact ⟨rfl, wordXYN_of_fields hop (Fin.ext ‹_›)⟩

theorem isWordOf_familyE {w : Word} {i : Instr} (hop : fieldOp w = 0xE) (h : decodeFamilyE w = some i) :
    IsWordOf w i := by
  unfold decodeFamilyE at h
  split at h <;> cases h <;> exact ⟨rfl, wordXNN_of_fields hop (BitVec.eq_of_toNat_eq ‹_›)⟩

theorem isWordOf_familyF {w : Word} {i : Instr} (hop : fieldOp w = 0xF) (h : decodeFamilyF w = some i) :
    IsWordOf w i := by
  unfold decodeFamilyF at h
  split at h <;> cases h <;> exact ⟨rfl, wordXNN_of_fields hop (BitVec.eq_of_toNat_eq ‹_›)⟩

/-- Settles O2: in each family the decoder reads every field of the word's format, and a selector it does not return
it has compared. -/
theorem encodeOfDecodeIsTheWord : Obligations.EncodeOfDecodeIsTheWord := by
  intro w i h
  unfold decode at h
  -- `split` numbers the families from 1
  split at h
  case h_1 hop => cases h; exact isWordOf_family0 hop
  case h_9 hop => exact isWordOf_family8 hop h
  case h_15 hop => exact isWordOf_familyE hop h
  case h_16 hop => exact isWordOf_familyF hop h
  case h_2 | h_3 | h_11 | h_12 => cases h; exact ⟨rfl, wordNNN_of_fields ‹_›⟩
  case h_4 | h_5 | h_7 | h_8 | h_13 => cases h; exact ⟨rfl, wordXNN_of_fields ‹_› rfl⟩
  case h_14 => cases h; exact ⟨rfl, wordXYN_of_fields ‹_› rfl⟩
  case h_6 | h_10 =>
    split_ifs at h with hn
    cases h; exact ⟨rfl, wordXYN_of_fields ‹_› hn⟩
  case h_17 => cases h

/-! The invalid words (R94). -/

/-- Whether the low byte of a word is a selector that its family has no row for. -/
def invalidSelector (op low : Nat) : Bool :=
  match op with
  | 0x5 | 0x9 => low % 16 ≠ 0
  | 0x8 => low % 16 ∈ [0x8, 0x9, 0xA, 0xB, 0xC, 0xD, 0xF]
  | 0xE => low ∉ [0x9E, 0xA1]
  | 0xF => low ∉ [0x07, 0x0A, 0x15, 0x18, 0x1E, 0x29, 0x33, 0x55, 0x65]
  | _ => false

section Invalid

variable {w : Word}

theorem decodeFamily8_eq_none :
    decodeFamily8 w = none ↔ w.toNat % 16 ∈ [0x8, 0x9, 0xA, 0xB, 0xC, 0xD, 0xF] := by
  have hlt : w.toNat % 16 < 16 := Nat.mod_lt _ (by decide)
  simp only [decodeFamily8, fieldN]
  generalize w.toNat % 16 = n at hlt
  interval_cases n <;> simp

theorem decodeFamilyE_eq_none : decodeFamilyE w = none ↔ w.toNat % 256 ∉ [0x9E, 0xA1] := by
  simp only [decodeFamilyE, fieldNN, BitVec.toNat_ofNat]
  split <;> simp_all

theorem decodeFamilyF_eq_none :
    decodeFamilyF w = none ↔ w.toNat % 256 ∉ [0x07, 0x0A, 0x15, 0x18, 0x1E, 0x29, 0x33, 0x55, 0x65] := by
  simp only [decodeFamilyF, fieldNN, BitVec.toNat_ofNat]
  split <;> simp_all

/-- A word is invalid where its family has no row for its selector. -/
theorem decode_eq_none : decode w = none ↔ invalidSelector (fieldOp w) (w.toNat % 256) = true := by
  have hlow : w.toNat % 256 % 16 = w.toNat % 16 := Nat.mod_mod_of_dvd _ (by decide)
  have hlt := fieldOp_lt w
  unfold decode
  generalize fieldOp w = op at hlt
  interval_cases op <;>
    simp only [invalidSelector, hlow, decide_eq_true_eq, decodeFamily8_eq_none, decodeFamilyE_eq_none,
      decodeFamilyF_eq_none, ite_eq_right_iff, fieldN_eq_zero, reduceCtorEq, imp_false, ne_eq, Bool.false_eq_true]

/-- The selector's cases as the five lines of the table of invalid words. -/
theorem decode_eq_none_iff_table : decode w = none ↔
    (w.toNat / 4096 = 0x5 ∧ w.toNat % 16 ≠ 0) ∨
    (w.toNat / 4096 = 0x8 ∧ w.toNat % 16 ∈ [0x8, 0x9, 0xA, 0xB, 0xC, 0xD, 0xF]) ∨
    (w.toNat / 4096 = 0x9 ∧ w.toNat % 16 ≠ 0) ∨
    (w.toNat / 4096 = 0xE ∧ w.toNat % 256 ∉ [0x9E, 0xA1]) ∨
    (w.toNat / 4096 = 0xF ∧ w.toNat % 256 ∉ [0x07, 0x0A, 0x15, 0x18, 0x1E, 0x29, 0x33, 0x55, 0x65]) := by
  have hlow : w.toNat % 256 % 16 = w.toNat % 16 := Nat.mod_mod_of_dvd _ (by decide)
  have hlt := fieldOp_lt w
  rw [decode_eq_none]
  unfold fieldOp at hlt ⊢
  generalize w.toNat / 4096 = op at hlt
  interval_cases op <;> simp [invalidSelector, hlow]

end Invalid

/-- A predicate of n modulo k, counted over m full periods. -/
theorem countP_range_mod (p : Nat → Bool) (m k : Nat) :
    (List.range (m * k)).countP (fun n => p (n % k)) = m * (List.range k).countP p := by
  induction m with
  | zero => simp
  | succ m ih =>
    have hperiod : (List.range k).countP (fun n => p ((m * k + n) % k)) = (List.range k).countP p :=
      List.countP_congr fun n hn => by rw [Nat.mul_add_mod', Nat.mod_eq_of_lt (List.mem_range.1 hn)]
    rw [Nat.succ_mul, List.range_add, List.countP_append, ih, List.countP_map, Nat.succ_mul]
    exact congrArg _ hperiod

theorem invalidInFamily_eq {op : Nat} (hop : op < 16) :
    Machine.invalidInFamily op = 16 * (List.range 256).countP (invalidSelector op) := by
  rw [← countP_range_mod]
  refine List.countP_congr fun n hn => ?_
  have hn : n < 4096 := List.mem_range.1 hn
  have hw : (BitVec.ofNat 16 (op * 4096 + n)).toNat = op * 4096 + n := by
    rw [BitVec.toNat_ofNat]; omega
  have hfamily : fieldOp (BitVec.ofNat 16 (op * 4096 + n)) = op := by
    rw [fieldOp, hw]; omega
  have hlow : (op * 4096 + n) % 256 = n % 256 := by omega
  rw [Option.isNone_iff_eq_none, decode_eq_none, hfamily, hw, hlow]

theorem invalidInFamily_table : (List.range 16).map Machine.invalidInFamily =
    [0, 0, 0, 0, 0, 3840, 0, 0, 1792, 3840, 0, 0, 0, 0, 4064, 3952] := by
  rw [List.map_congr_left fun op hop => invalidInFamily_eq (List.mem_range.1 hop)]
  decide +kernel

end Sys2Proof

namespace Sys2Proof.Machine

/-- Settles O3: the invalid selectors by family, counted over one low byte; the halt from the step's equation. -/
theorem invalidWordsAreThoseOfTheTable : Obligations.InvalidWordsAreThoseOfTheTable := by
  refine ⟨fun _ => decode_eq_none_iff_table, invalidInFamily_table, ?_, ?_, fun s w => step_invalid s⟩
  · rw [invalidInFamily_table]; rfl
  · have h : (List.range 16).map (fun op => 4096 - invalidInFamily op) =
        ((List.range 16).map invalidInFamily).map (4096 - ·) := by rw [List.map_map]; rfl
    rw [h, invalidInFamily_table]; rfl

/-- Settles O4: the sixteen families' sample words and the byte lists, each evaluated. -/
theorem sampleWordsDecode : Obligations.SampleWordsDecode := by
  unfold Obligations.SampleWordsDecode
  decide

end Sys2Proof.Machine
end

section
/-!
PROOFS. The index register and the registers stored and loaded through it (spec/44_memory_index.md R211, R212, R214,
R215): FX1E, FX29, FX55 and FX65, the last two up to the first address past the memory.
-/

namespace Sys2Proof.Machine

variable (s : State)

/-! The index register. -/

theorem exec_ldFVx (x : Reg) : exec (.ldFVx x) s = .next (s.setI (glyphAddr (s.reg x))).advance := rfl

/-- The address of the highest glyph number, 255 * 5, is far below 65536 (R212). -/
theorem glyphAddr_toNat (v : Byte) : (glyphAddr v).toNat = v.toNat * 5 := by
  have hv := v.isLt
  rw [glyphAddr, BitVec.toNat_ofNat, Nat.mod_eq_of_lt (by omega)]

/-- Settles O29: FX29 is `setI` of the glyph's address with the plain advance. -/
theorem glyphAddressResult : Obligations.GlyphAddressResult := by
  intro s x
  exact ⟨_, exec_ldFVx s x, glyphAddr_toNat _, rfl, rfl, fun _ => rfl, fun _ => rfl⟩

theorem exec_addIVx_ok {x : Reg} (h : ¬(0xFFFF < s.i.toNat + (s.reg x).toNat ∧ s.cfg.iOverflow = .fatal)) :
    exec (.addIVx x) s = .next (s.setI (BitVec.ofNat 16 (s.i.toNat + (s.reg x).toNat))).advance :=
  (execAddIVx_eq s x).trans (by rw [if_neg h])

theorem exec_addIVx_fatal {x : Reg} (h : 0xFFFF < s.i.toNat + (s.reg x).toNat) (hf : s.cfg.iOverflow = .fatal) :
    exec (.addIVx x) s = .next (s.halt .iOverflowFault (some (encode (.addIVx x))) none none) :=
  (execAddIVx_eq s x).trans (by rw [if_pos ⟨h, hf⟩])

/-- Settles O28: FX1E writes the sum as a word, or raises, and the two conditions exclude each other. -/
theorem addToIndexResult : Obligations.AddToIndexResult := by
  intro s x sum
  refine ⟨fun h => ?_, fun h hf => exec_addIVx_fatal s h hf⟩
  have hok : ¬(0xFFFF < sum ∧ s.cfg.iOverflow = .fatal) := by
    rintro ⟨hlt, hf⟩
    rcases h with h | h
    · omega
    · cases h.symm.trans hf
  exact ⟨_, exec_addIVx_ok s hok, BitVec.toNat_ofNat .., rfl, rfl, fun _ => rfl, fun _ => rfl⟩

/-! The registers stored (R214). -/

/-- What FX55 stores, as far as the memory reaches. -/
def State.storeRange (x : Reg) : State := (s.storeBytes (s.effAddr 0) ((regRange x).map s.reg)).1

theorem State.storeRange_frame (x : Reg) : s.storeRange x = { s with mem := (s.storeRange x).mem } :=
  s.storeBytes_frame _ _

theorem State.storeRange_at {x k : Reg} (hk : k ≤ x) (ha : s.effAddr k.val < memSize) :
    (s.storeRange x).byteAt (s.effAddr k.val) = s.reg k := by
  have hlen : k.val < ((regRange x).map s.reg).length := by
    rw [regBytes_length]
    exact Nat.lt_succ_of_le hk
  rw [State.storeRange, s.storeBytes_byteAt_effAddr hlen ha, regBytes_getElem]

theorem State.storeRange_other {x : Reg} {a : Nat}
    (ha : ∀ k : Reg, k ≤ x → s.effAddr k.val < memSize → a ≠ s.effAddr k.val) :
    (s.storeRange x).byteAt a = s.byteAt a := by
  refine s.storeBytes_byteAt_other fun k hk => ?_
  rw [regBytes_length] at hk
  exact ha ⟨k, lt_of_lt_of_le hk x.isLt⟩ (Nat.le_of_lt_succ hk)

theorem exec_ldMemVx_ok {x : Reg} (h : s.effAddr x.val < memSize) :
    exec (.ldMemVx x) s = .next (s.storeRange x).advance :=
  (execLdMemVx_eq s x).trans (by rw [if_pos h, State.storeRange])

theorem exec_ldMemVx_error {x : Reg} (h : memSize ≤ s.effAddr x.val) :
    exec (.ldMemVx x) s = .next ((s.storeRange x).halt .memOutOfBounds (some (encode (.ldMemVx x)))
      (some (max s.i.toNat memSize)) none) :=
  (execLdMemVx_eq s x).trans (by rw [if_neg (Nat.not_lt.2 h), State.storeRange])

/-- The addresses before the last one are inside the memory where the last one is. -/
theorem State.effAddr_lt {x k : Reg} (h : s.effAddr x.val < memSize) (hk : k ≤ x) : s.effAddr k.val < memSize :=
  Nat.lt_of_le_of_lt (Nat.add_le_add_left hk _) h

/-- Settles O31: the whole store, then the advance. -/
theorem registersStored : Obligations.RegistersStored := by
  intro s x h
  have hframe := s.storeRange_frame x
  refine ⟨_, exec_ldMemVx_ok s h, fun k hk => ?_, fun a ha => ?_, ?_, ?_, fun r => ?_⟩
  · exact s.storeRange_at hk (s.effAddr_lt h hk)
  · exact s.storeRange_other fun k hk _ => ha k hk
  · rw [hframe]; rfl
  · rw [hframe]; rfl
  · rw [hframe]; rfl

/-- Settles O32: the store as far as the memory reaches, then the halt. -/
theorem registersStoredUpToTheFault : Obligations.RegistersStoredUpToTheFault := by
  intro s x h
  have hframe := s.storeRange_frame x
  refine ⟨_, exec_ldMemVx_error s h, ?_, fun k hk ha => ?_, fun a ha => ?_, ?_⟩
  · rw [hframe]; rfl
  · exact s.storeRange_at hk ha
  · exact s.storeRange_other ha
  · rw [hframe]; rfl

/-! The registers loaded (R215). -/

/-- What FX65 loads, as far as the memory reaches. -/
def State.loadRange (x : Reg) : State := (s.loadRegs (s.effAddr 0) (regRange x)).1

theorem State.loadRange_frame (x : Reg) : s.loadRange x = { s with regs := (s.loadRange x).regs } :=
  s.loadRegs_frame _ _

theorem State.loadRange_reg_effAddr (x q : Reg) : (s.loadRange x).reg q =
    if q ≤ x ∧ s.effAddr q.val < memSize then s.byteAt (s.effAddr q.val) else s.reg q := s.loadRange_reg _ x q

theorem exec_ldVxMem_ok {x : Reg} (h : s.effAddr x.val < memSize) :
    exec (.ldVxMem x) s = .next (s.loadRange x).advance :=
  (execLdVxMem_eq s x).trans (by rw [if_pos h, State.loadRange])

theorem exec_ldVxMem_error {x : Reg} (h : memSize ≤ s.effAddr x.val) :
    exec (.ldVxMem x) s = .next ((s.loadRange x).halt .memOutOfBounds (some (encode (.ldVxMem x)))
      (some (max s.i.toNat memSize)) none) :=
  (execLdVxMem_eq s x).trans (by rw [if_neg (Nat.not_lt.2 h), State.loadRange])

/-- Settles O33: the whole load, then the advance. -/
theorem registersLoaded : Obligations.RegistersLoaded := by
  intro s x h
  have hframe := s.loadRange_frame x
  refine ⟨_, exec_ldVxMem_ok s h, fun k hk => ?_, fun k hk => ?_, ?_, ?_, fun a => ?_⟩
  · rw [State.advance_reg, s.loadRange_reg_effAddr, if_pos ⟨hk, s.effAddr_lt h hk⟩]
  · rw [State.advance_reg, s.loadRange_reg_effAddr, if_neg fun hle => absurd hk (not_lt.2 hle.1)]
  · rw [hframe]; rfl
  · rw [hframe]; rfl
  · rw [hframe]; rfl

/-- Settles O34: the load as far as the memory reaches, then the halt. -/
theorem registersLoadedUpToTheFault : Obligations.RegistersLoadedUpToTheFault := by
  intro s x h
  have hframe := s.loadRange_frame x
  refine ⟨_, exec_ldVxMem_error s h, ?_, fun k => ?_, ?_, fun a => ?_⟩
  · rw [hframe]; rfl
  · exact s.loadRange_reg_effAddr x k
  · rw [hframe]; rfl
  · rw [hframe]; rfl

/-- FX55 of a running core that completes is one whose addresses are all inside the memory. -/
theorem ldMemVx_running {x : Reg} {t : State} (h : exec (.ldMemVx x) s = .next t) (ht : t.status = .running) :
    s.effAddr x.val < memSize ∧ t = (s.storeRange x).advance := by
  by_cases ha : s.effAddr x.val < memSize
  · cases (exec_ldMemVx_ok s ha).symm.trans h
    exact ⟨ha, rfl⟩
  · cases (exec_ldMemVx_error s (Nat.not_lt.1 ha)).symm.trans h
    cases ht

/-- Settles O35: the load reads each address where the store put the register. -/
theorem storeThenLoadGivesTheRegistersBack : Obligations.StoreThenLoadGivesTheRegistersBack := by
  intro s t u x _ ht hrun hmem hcfg hi
  obtain ⟨hin, rfl⟩ := ldMemVx_running s ht hrun
  have haddr : ∀ k, u.effAddr k = s.effAddr k := fun k => by rw [State.effAddr, hi, State.effAddr]
  have hbyte : ∀ a, u.byteAt a = (s.storeRange x).byteAt a := fun a => by rw [State.byteAt, hmem, hcfg]; rfl
  have huin : u.effAddr x.val < memSize := (haddr _).symm ▸ hin
  refine ⟨_, exec_ldVxMem_ok u huin, ?_, fun k hk => ?_⟩
  · rw [u.loadRange_frame]; rfl
  · rw [State.advance_reg, u.loadRange_reg_effAddr, if_pos ⟨hk, u.effAddr_lt huin hk⟩, hbyte, haddr,
      s.storeRange_at hk (s.effAddr_lt hin hk)]

end Sys2Proof.Machine
end

section
/-!
PROOFS. What an instruction can do, said once: it completes in one of a few ways, or it raises by its own rule and
leaves the state halted (spec/40_cycle.md R120; spec/60_exceptions.md R301 to R303).
-/

namespace Sys2Proof.Machine

/-! The record of a raise (R302). -/

section Record

variable {pc w : Word}

theorem recordFits_plain {kind : FatalKind} (hm : kind ≠ .memOutOfBounds) (hk : kind ≠ .keyIndexOutOfRange) :
    recordFits (fatalRecord kind pc (some w) none none) pc := by simp [recordFits, fatalRecord, hm, hk]

theorem recordFits_memory {a : Nat} (ha : 4096 ≤ a) :
    recordFits (fatalRecord .memOutOfBounds pc (some w) (some a) none) pc := by
  simpa [recordFits, fatalRecord] using ha

theorem recordFits_key {v : Byte} (hv : 16 ≤ v.toNat) :
    recordFits (fatalRecord .keyIndexOutOfRange pc (some w) none (some v)) pc := by
  simpa [recordFits, fatalRecord] using hv

/-- A fetch that fails has no opcode to record (R63). -/
theorem recordFits_fetch (h : 4095 ≤ pc.toNat) :
    recordFits (fatalRecord .memOutOfBounds pc none (some (max pc.toNat 4096)) none) pc := by
  simpa [recordFits, fatalRecord] using h

end Record

/-- The memory access of FX33, FX55 and FX65 as far as it goes: all of it, or what comes before the first address
past the memory (R69, R70). -/
inductive Accessed (s : State) : Instr → State → Prop
  | digits (x : Reg) : Accessed s (.ldBVx x) (s.storeBytes (s.effAddr 0) (bcdDigits (s.reg x))).1
  | stored (x : Reg) : Accessed s (.ldMemVx x) (s.storeRange x)
  | loaded (x : Reg) : Accessed s (.ldVxMem x) (s.loadRange x)

/-- The ways an instruction i completes: which part of the state it writes, where the value written matters to an
invariant also that value. -/
inductive Completes (i : Instr) (s : State) : State → Prop
  | skips (c : Bool) : Completes i s (s.skipIf c)
  | jumps {v : Word} (hv : v.toNat ≤ 0x10FE) : Completes i s (s.setPc v)
  | waits : Completes i s s
  | setsReg {x : Reg} (v : Byte) (hx : writesReg i x) : Completes i s (s.setReg x v).advance
  | setsResultFlag {x : Reg} (p : Byte × Bool) (hx : writesReg i x) (hf : writesReg i flagReg) :
      Completes i s (s.setResultFlag x p).advance
  | drawsRandom {x : Reg} {nn : Byte} (v : Byte) (hi : i = .rnd x nn) :
      Completes i s (s.drawRandom.2.setReg x v).advance
  | setsIndex (v : Word) (hi : writesIndex i) : Completes i s (s.setI v).advance
  | clears (hi : i = .cls) : Completes i s (s.redraw blankScreen).advance
  | draws {x y : Reg} {n : Fin 16} (d : FrameBuffer × Bool) (hi : i = .drw x y n) : Completes i s (s.drawn d)
  | calls {nnn : Addr12} (hi : i = .sys nnn ∨ i = .call nnn) (h : s.cfg.stackCapacity ≠ some s.stack.length) :
      Completes i s { s with stack := (s.pc + 2) :: s.stack, pc := zextAddr nnn }
  | returns {v : Word} {rest : List Word} (hi : i = .ret) (h : s.stack = v :: rest) :
      Completes i s { s with stack := rest, pc := v }
  | setsDelay {x : Reg} (hi : i = .ldDtVx x) : Completes i s (s.setDelay (s.frameTicks (s.reg x))).advance
  | setsSound {x : Reg} (hi : i = .ldStVx x) :
      Completes i s ((s.setSound (s.frameTicks (s.reg x)) true).emit (.audioStart (s.reg x))).advance
  | accesses {u : State} (hu : Accessed s i u) : Completes i s u.advance

/-- What an instruction does: it completes where its rule raises nothing, or it raises what its rule says, after an
access that reached the end of the memory or after nothing. -/
inductive Effect (i : Instr) (s : State) : State → Prop
  | completes {t : State} (h : Completes i s t) (hno : ∀ kind, ¬raisesKind s kind i) : Effect i s t
  | raises {u : State} {kind : FatalKind} {addr : Option Nat} {key : Option Byte} (hu : u = s ∨ Accessed s i u)
      (hk : raisesKind s kind i) (hrec : recordFits (fatalRecord kind s.pc (some (encode i)) addr key) s.pc) :
      Effect i s (u.halt kind (some (encode i)) addr key)

variable (s : State)

theorem effect_call {i : Instr} {nnn : Addr12} (hi : i = .sys nnn ∨ i = .call nnn) : Effect i s
    (if s.cfg.stackCapacity = some s.stack.length then s.halt .stackOverflow (some (encode i)) none none
      else { s with stack := (s.pc + 2) :: s.stack, pc := zextAddr nnn }) := by
  have hraises : ∀ kind, raisesKind s kind i ↔ kind = .stackOverflow ∧ s.cfg.stackCapacity = some s.stack.length := by
    rcases hi with rfl | rfl <;> exact fun _ => Iff.rfl
  split_ifs with h
  · exact .raises (.inl rfl) ((hraises _).2 ⟨rfl, h⟩) (recordFits_plain (by decide) (by decide))
  · exact .completes (.calls hi h) fun kind hk => h ((hraises kind).1 hk).2

theorem effect_ret : ∃ t, execRet s = .next t ∧ Effect .ret s t := by
  cases h : s.stack with
  | nil =>
    exact ⟨_, execRet_nil s h, .raises (i := .ret) (.inl rfl) ⟨rfl, h⟩ (recordFits_plain (by decide) (by decide))⟩
  | cons v rest =>
    exact ⟨_, execRet_cons s h, .completes (.returns rfl h) fun _ hk => List.cons_ne_nil _ _ (h.symm.trans hk.2)⟩

theorem effect_skipOnKey {i : Instr} {x : Reg} (level : Bool)
    (hi : ∀ kind, raisesKind s kind i ↔ kind = .keyIndexOutOfRange ∧ 16 ≤ (s.reg x).toNat) : Effect i s
    (if 16 ≤ (s.reg x).toNat then s.halt .keyIndexOutOfRange (some (encode i)) none (some (s.reg x))
      else s.skipIf (s.keys.getLsbD (s.reg x).toNat == level)) := by
  split_ifs with h
  · exact .raises (.inl rfl) ((hi _).2 ⟨rfl, h⟩) (recordFits_key h)
  · exact .completes (.skips _) fun kind hk => h ((hi kind).1 hk).2

theorem effect_addIVx (x : Reg) : ∃ t, execAddIVx x s = .next t ∧ Effect (.addIVx x) s t := by
  refine ⟨_, execAddIVx_eq s x, ?_⟩
  split_ifs with h
  · exact .raises (.inl rfl) ⟨rfl, h.2, h.1⟩ (recordFits_plain (by decide) (by decide))
  · exact .completes (.setsIndex _ (.inr (.inl ⟨x, rfl⟩))) fun _ hk => h ⟨hk.2.2, hk.2.1⟩

theorem effect_drw (x y : Reg) (n : Fin 16) : ∃ t, execDrw x y n s = .next t ∧ Effect (.drw x y n) s t := by
  by_cases h : 0 < n.val ∧ memSize < s.effAddr n.val
  · exact ⟨_, execDrw_error s h.1 h.2, .raises (.inl rfl) ⟨rfl, h⟩ (recordFits_memory (Nat.le_max_right _ _))⟩
  · exact ⟨_, execDrw_ok s (by omega), .completes (.draws _ rfl) fun _ hk => h hk.2⟩

/-- The accesses end in the advance, or halt at the first address past the memory. -/
theorem effect_access {i : Instr} {u : State} {k : Nat} (hu : Accessed s i u)
    (hi : ∀ kind, raisesKind s kind i ↔ kind = .memOutOfBounds ∧ memSize < s.effAddr (k + 1)) : Effect i s
    (if s.effAddr k < memSize then u.advance
      else u.halt .memOutOfBounds (some (encode i)) (some (max s.i.toNat memSize)) none) := by
  split_ifs with h
  · exact .completes (.accesses hu) fun kind hk => absurd ((hi kind).1 hk).2 (Nat.not_lt.2 h)
  · exact .raises (.inr hu) ((hi _).2 ⟨rfl, Nat.lt_succ_of_le (Nat.not_lt.1 h)⟩)
      (recordFits_memory (Nat.le_max_right _ _))

theorem effect_ldVxK (x : Reg) : ∃ t, execLdVxK x s = .next t ∧ Effect (.ldVxK x) s t := by
  refine ⟨_, execLdVxK_eq s x, ?_⟩
  split
  · exact .completes (.setsReg _ rfl) fun _ => id
  · exact .completes .waits fun _ => id

/-- Every instruction answers a next state, and what it did is one of the effects. -/
theorem exec_effect (i : Instr) : ∃ t, exec i s = .next t ∧ Effect i s t := by
  cases i with
  | cls => exact ⟨_, rfl, .completes (.clears rfl) fun _ => id⟩
  | ret => exact effect_ret s
  | sys nnn => exact ⟨_, execSys_eq s nnn, effect_call s (.inl rfl)⟩
  | call nnn => exact ⟨_, execCall_eq s nnn, effect_call s (.inr rfl)⟩
  | jp nnn =>
    have := nnn.isLt
    exact ⟨_, rfl, .completes (.jumps (by rw [zextAddr_toNat]; omega)) fun _ => id⟩
  | jpV0 nnn =>
    have := nnn.isLt
    have := (s.reg 0).isLt
    exact ⟨_, rfl, .completes (.jumps (by rw [jpV0_target_toNat]; omega)) fun _ => id⟩
  | seVxNn | sneVxNn | seVxVy | sneVxVy => exact ⟨_, rfl, .completes (.skips _) fun _ => id⟩
  | ldVxNn | addVxNn | ldVxVy | or | and | xor | ldVxDt => exact ⟨_, rfl, .completes (.setsReg _ rfl) fun _ => id⟩
  | addVxVy | sub | shr | subn | shl =>
    exact ⟨_, rfl, .completes (.setsResultFlag _ (.inl rfl) (.inr rfl)) fun _ => id⟩
  | rnd => exact ⟨_, rfl, .completes (.drawsRandom _ rfl) fun _ => id⟩
  | ldI nnn => exact ⟨_, rfl, .completes (.setsIndex _ (.inl ⟨nnn, rfl⟩)) fun _ => id⟩
  | ldFVx x => exact ⟨_, rfl, .completes (.setsIndex _ (.inr (.inr ⟨x, rfl⟩))) fun _ => id⟩
  | addIVx x => exact effect_addIVx s x
  | drw x y n => exact effect_drw s x y n
  | skp x => exact ⟨_, skipOnKey_eq s _ x true, effect_skipOnKey s true fun _ => Iff.rfl⟩
  | sknp x => exact ⟨_, skipOnKey_eq s _ x false, effect_skipOnKey s false fun _ => Iff.rfl⟩
  | ldVxK x => exact effect_ldVxK s x
  | ldDtVx => exact ⟨_, rfl, .completes (.setsDelay rfl) fun _ => id⟩
  | ldStVx => exact ⟨_, rfl, .completes (.setsSound rfl) fun _ => id⟩
  | ldBVx x => exact ⟨_, execLdBVx_eq s x, effect_access s (k := 2) (.digits x) fun _ => Iff.rfl⟩
  | ldMemVx x => exact ⟨_, execLdMemVx_eq s x, effect_access s (.stored x) fun _ => Iff.rfl⟩
  | ldVxMem x => exact ⟨_, execLdVxMem_eq s x, effect_access s (.loaded x) fun _ => Iff.rfl⟩

theorem effect_of_exec {i : Instr} {t : State} (h : exec i s = .next t) : Effect i s t := by
  obtain ⟨t', ht', he⟩ := exec_effect s i
  cases ht'.symm.trans h
  exact he

end Sys2Proof.Machine
end

section
/-!
PROOFS. What the effects of an instruction leave unchanged (spec/10_state.md R20 to R35; spec/60_exceptions.md R302,
R303), element by element, and when they halt.
-/

namespace Sys2Proof.Machine

section Frames

variable {i : Instr} {s t u : State}

/-! The memory accesses, whole or cut short. -/

theorem Accessed.frame (h : Accessed s i u) : ∃ regs mem, u = { s with regs := regs, mem := mem } := by
  cases h with
  | digits => exact ⟨s.regs, _, s.storeBytes_frame _ _⟩
  | stored x => exact ⟨s.regs, _, s.storeRange_frame x⟩
  | loaded x => exact ⟨_, s.mem, s.loadRange_frame x⟩

theorem Accessed.regs_eq (h : Accessed s i u) (hi : ∀ x, i ≠ .ldVxMem x) : u.regs = s.regs := by
  cases h with
  | digits => rw [s.storeBytes_frame]
  | stored x => rw [s.storeRange_frame]
  | loaded x => exact absurd rfl (hi x)

theorem Accessed.reg_eq {r : Reg} (h : Accessed s i u) (hr : ¬writesReg i r) : u.reg r = s.reg r := by
  cases h with
  | digits => rw [s.storeBytes_frame]; rfl
  | stored x => rw [s.storeRange_frame]; rfl
  | loaded x => rw [s.loadRange_reg_effAddr, if_neg fun hle => hr hle.1]

theorem Accessed.mem_eq (h : Accessed s i u) (hi : ¬writesMemory i) : u.mem = s.mem := by
  cases h with
  | digits x => exact absurd (.inl ⟨x, rfl⟩) hi
  | stored x => exact absurd (.inr ⟨x, rfl⟩) hi
  | loaded x => rw [s.loadRange_frame]

theorem Accessed.memoryCanonical (h : Accessed s i u) (hs : memoryCanonical s) : memoryCanonical u := by
  cases h with
  | digits | stored => exact s.storeBytes_wf _ _ hs
  | loaded x => rw [s.loadRange_frame]; exact hs

/-- What stands when an instruction raises differs from the state before it in registers and memory at most. -/
theorem beforeRaise_frame (hu : u = s ∨ Accessed s i u) : ∃ regs mem, u = { s with regs := regs, mem := mem } := by
  rcases hu with rfl | hu
  · exact ⟨_, _, rfl⟩
  · exact hu.frame

/-! The effects. -/

theorem Completes.status_eq (h : Completes i s t) : t.status = s.status := by
  cases h with
  | accesses hu => obtain ⟨_, _, rfl⟩ := hu.frame; rfl
  | _ => rfl

theorem Effect.host_eq (h : Effect i s t) : t.keys = s.keys ∧ t.cfg = s.cfg ∧ t.inputs = s.inputs := by
  cases h with
  | raises hu => obtain ⟨_, _, rfl⟩ := beforeRaise_frame hu; exact ⟨rfl, rfl, rfl⟩
  | completes h => cases h with
    | accesses hu => obtain ⟨_, _, rfl⟩ := hu.frame; exact ⟨rfl, rfl, rfl⟩
    | _ => exact ⟨rfl, rfl, rfl⟩

theorem Effect.reg_eq {r : Reg} (h : Effect i s t) (hr : ¬writesReg i r) : t.reg r = s.reg r := by
  have hne : ∀ {x}, writesReg i x → r ≠ x := fun hx e => hr (e ▸ hx)
  cases h with
  | raises hu =>
    rcases hu with rfl | hu
    · rfl
    · exact hu.reg_eq hr
  | completes h => cases h with
    | setsReg v hx => rw [State.advance_reg, State.setReg_reg, if_neg (hne hx)]
    | setsResultFlag p hx hf =>
      rw [State.advance_reg, State.setResultFlag_reg, if_neg (hne hf), if_neg (hne hx)]
    | drawsRandom v hi =>
      rw [State.advance_reg, State.setReg_reg, if_neg (hne (hi ▸ rfl)), State.drawRandom_reg]
    | draws d hi => rw [State.drawn, State.advance_reg, State.setReg_reg, if_neg (hne (hi ▸ rfl)), State.redraw_reg]
    | accesses hu => exact hu.reg_eq hr
    | _ => rfl

theorem Effect.index_eq (h : Effect i s t) (hi : ¬writesIndex i) : t.i = s.i := by
  cases h with
  | raises hu => obtain ⟨_, _, rfl⟩ := beforeRaise_frame hu; rfl
  | completes h => cases h with
    | setsIndex v hw => exact absurd hw hi
    | accesses hu => obtain ⟨_, _, rfl⟩ := hu.frame; rfl
    | _ => rfl

theorem Effect.stack_eq (h : Effect i s t) (hi : ¬writesStack i) : t.stack = s.stack := by
  cases h with
  | raises hu => obtain ⟨_, _, rfl⟩ := beforeRaise_frame hu; rfl
  | completes h => cases h with
    | calls hw => exact absurd (.inr (hw.imp (⟨_, ·⟩) (⟨_, ·⟩))) hi
    | returns hw => exact absurd (.inl hw) hi
    | accesses hu => obtain ⟨_, _, rfl⟩ := hu.frame; rfl
    | _ => rfl

theorem Effect.display_eq (h : Effect i s t) (hi : ¬writesDisplay i) : t.fb = s.fb ∧ t.dirty = s.dirty := by
  cases h with
  | raises hu => obtain ⟨_, _, rfl⟩ := beforeRaise_frame hu; exact ⟨rfl, rfl⟩
  | completes h => cases h with
    | clears hw => exact absurd (.inl hw) hi
    | draws d hw => exact absurd (.inr ⟨_, _, _, hw⟩) hi
    | accesses hu => obtain ⟨_, _, rfl⟩ := hu.frame; exact ⟨rfl, rfl⟩
    | _ => exact ⟨rfl, rfl⟩

theorem Effect.mem_eq (h : Effect i s t) (hi : ¬writesMemory i) : t.mem = s.mem := by
  cases h with
  | raises hu =>
    rcases hu with rfl | hu
    · rfl
    · exact hu.mem_eq hi
  | completes h => cases h with
    | accesses hu => exact hu.mem_eq hi
    | _ => rfl

/-- A byte is read from the memory and the FONT, so where neither changes it reads as before. -/
theorem Effect.sameBytes (h : Effect i s t) (hi : ¬writesMemory i) : sameBytes s t := fun a => by
  rw [State.byteAt, h.mem_eq hi, h.host_eq.2.1, State.byteAt]

theorem Effect.delay_eq (h : Effect i s t) (hi : ∀ x, i ≠ .ldDtVx x) : t.dtTicks = s.dtTicks := by
  cases h with
  | raises hu => obtain ⟨_, _, rfl⟩ := beforeRaise_frame hu; rfl
  | completes h => cases h with
    | setsDelay hw => exact absurd hw (hi _)
    | accesses hu => obtain ⟨_, _, rfl⟩ := hu.frame; rfl
    | _ => rfl

theorem Effect.sound_eq (h : Effect i s t) (hi : ∀ x, i ≠ .ldStVx x) :
    t.stTicks = s.stTicks ∧ t.stActive = s.stActive ∧ t.events = s.events := by
  cases h with
  | raises hu => obtain ⟨_, _, rfl⟩ := beforeRaise_frame hu; exact ⟨rfl, rfl, rfl⟩
  | completes h => cases h with
    | setsSound hw => exact absurd hw (hi _)
    | accesses hu => obtain ⟨_, _, rfl⟩ := hu.frame; exact ⟨rfl, rfl, rfl⟩
    | _ => exact ⟨rfl, rfl, rfl⟩

theorem Effect.draws_eq (h : Effect i s t) (hi : ∀ x nn, i ≠ .rnd x nn) : t.draws = s.draws := by
  cases h with
  | raises hu => obtain ⟨_, _, rfl⟩ := beforeRaise_frame hu; rfl
  | completes h => cases h with
    | drawsRandom v hw => exact absurd hw (hi _ _)
    | accesses hu => obtain ⟨_, _, rfl⟩ := hu.frame; rfl
    | _ => rfl

end Frames

/-- Settles O49: the register frame of every effect. -/
theorem registersChangeOnlyWhereNamed : Obligations.RegistersChangeOnlyWhereNamed :=
  fun _ s _ _ h hr => (effect_of_exec s h).reg_eq hr

/-- Settles O50: the frames of every effect, element by element. -/
theorem specialStateChangesOnlyWhereNamed : Obligations.SpecialStateChangesOnlyWhereNamed := by
  intro i s t h
  have he := effect_of_exec s h
  exact ⟨he.index_eq, he.stack_eq, he.display_eq, he.sameBytes, he.delay_eq, he.sound_eq, he.draws_eq, he.host_eq⟩

/-! When an instruction raises, and what it leaves then (R301 to R303). -/

theorem raisesKind_unique {s : State} {i : Instr} {kind kind' : FatalKind} (h : raisesKind s kind i)
    (h' : raisesKind s kind' i) : kind = kind' := by
  cases i with
  | ret | sys | call | skp | sknp | addIVx | drw | ldBVx | ldMemVx | ldVxMem => exact h.1.trans h'.1.symm
  | _ => exact h.elim

/-- A running core is halted by an instruction exactly with the kind its rule raises. -/
theorem Effect.halted_iff {i : Instr} {s t : State} (h : Effect i s t) (hs : s.status = .running) (kind : FatalKind) :
    (∃ f, t.status = .halted f ∧ f.kind = kind) ↔ raisesKind s kind i := by
  cases h with
  | completes h hno =>
    refine iff_of_false ?_ (hno kind)
    rintro ⟨f, hf, -⟩
    cases hf.symm.trans (h.status_eq.trans hs)
  | raises hu hk hrec =>
    constructor
    · rintro ⟨f, hf, rfl⟩
      cases hf
      exact hk
    · exact fun hk' => ⟨_, rfl, raisesKind_unique hk hk'⟩

/-- Settles O47: every instruction has an effect, and an effect halts exactly where it is a raise. -/
theorem instructionsRaiseExactlyWhenTheirRulesSay : Obligations.InstructionsRaiseExactlyWhenTheirRulesSay := by
  intro i s hs
  obtain ⟨t, ht, he⟩ := exec_effect s i
  exact ⟨t, ht, he.halted_iff hs⟩

/-- A halted answer of a running core is a raise. -/
theorem Effect.raise_of_halted {i : Instr} {s t : State} {f : FatalRecord} (h : Effect i s t) (hs : s.status = .running)
    (hf : t.status = .halted f) : ∃ u, (u = s ∨ Accessed s i u) ∧ t = { u with status := .halted f } ∧
      f.opcode = some (encode i) ∧ recordFits f s.pc := by
  cases h with
  | completes h hno => cases hf.symm.trans (h.status_eq.trans hs)
  | @raises u kind addr key hu hk hrec =>
    have hpc : u.pc = s.pc := by obtain ⟨_, _, rfl⟩ := beforeRaise_frame hu; rfl
    cases hf
    exact ⟨u, hu, rfl, rfl, hpc ▸ hrec⟩

/-- Settles O48: what stands at a raise is the state before, but for the access of FX33, FX55 or FX65 up to the end
of the memory. -/
theorem faultsArePrecise : Obligations.FaultsArePrecise := by
  intro i s t f hs ht hf
  have he := effect_of_exec s ht
  obtain ⟨u, hu, rfl, hop, hrec⟩ := he.raise_of_halted hs hf
  refine ⟨hop, hrec, ?_, fun hi => ?_, ?_, he.sameBytes, ?_, ?_⟩
  · obtain ⟨_, _, rfl⟩ := beforeRaise_frame hu
    rfl
  · rcases hu with rfl | hu
    · rfl
    · exact hu.regs_eq hi
  · rintro x rfl k hk
    rcases hu with rfl | hu
    · rfl
    · cases hu
      exact (s.loadRange_reg_effAddr x k).trans (if_neg hk)
  · rintro x rfl a ha
    rcases hu with rfl | hu
    · rfl
    · cases hu
      exact s.storeBytes_byteAt_other ha
  · rintro x rfl a ha
    rcases hu with rfl | hu
    · rfl
    · cases hu
      exact s.storeRange_other ha

end Sys2Proof.Machine
end

section
/-!
PROOFS. The invariants of the machine (spec/10_state.md R24 to R27, R33, R35; spec/60_exceptions.md R302, R309; the
model's memory form, notes/assumptions/9.md): a fresh core meets them, and every host event, every effect of an
instruction and the timer update keep them.
-/

namespace Sys2Proof.Machine

/-! The fresh core (R36, R340). -/

/-- The reset values of the core, around a memory, a configuration and the model's own fields. -/
def State.fresh (mem : Memory) (cfg : Config) (draws : Nat) (events : List Event) (inputs : List (List HostEvent)) :
    State :=
  { State.reset with mem := mem, cfg := cfg, draws := draws, events := events, inputs := inputs }

/-- What reset leaves where it does not refuse the ROM. -/
theorem State.boot_cases {s t : State} {rom : List Byte} (h : s.boot rom = some t) : rom.length ≤ 3584 ∧
    t = State.fresh (Memory.placeRom s.cfg romBase rom []) s.cfg s.draws s.events s.inputs := by
  by_cases hrom : 0 < rom.length ∧ rom.length ≤ 3584
  · exact ⟨hrom.2, Option.some.inj (h.symm.trans (s.boot_some hrom))⟩
  · cases h.symm.trans (s.boot_none.2 (by omega))

theorem Memory.placeRom_reset_wf (c : Config) {rom : List Byte} (h : rom.length ≤ 3584) :
    Memory.wf c (Memory.placeRom c romBase rom []) :=
  Memory.placeRom_wf c (Memory.nil_wf c) (show 512 + rom.length ≤ 4096 by omega)

section Fresh

variable (mem : Memory) (cfg : Config) (draws : Nat) (events : List Event) (inputs : List (List HostEvent))

theorem fresh_controlBounds : controlBounds (.fresh mem cfg draws events inputs) :=
  ⟨show (0x200 : Word).toNat ≤ 0x10FE by decide, fun _ hv => absurd hv List.not_mem_nil⟩

theorem fresh_depthBound : depthBound (.fresh mem cfg draws events inputs) := fun c _ => Nat.zero_le c

theorem fresh_timerBounds : timerBounds (.fresh mem cfg draws events inputs) := by
  have hcount : (State.fresh mem cfg draws events inputs).soundCount = 0 := Nat.zero_div _
  refine ⟨Nat.zero_le _, Nat.zero_le _, ?_⟩
  rw [hcount]
  exact iff_of_false Bool.false_ne_true (lt_irrefl 0)

theorem fresh_haltedRecordFits : haltedRecordFits (.fresh mem cfg draws events inputs) := fun _ hf => nomatch hf

theorem fresh_audioOrder (h : stopsFollowStarts events) : audioOrder (.fresh mem cfg draws events inputs) :=
  ⟨h, fun hact => nomatch hact⟩

theorem fresh_inv (hmem : Memory.wf cfg mem) (hcfg : cfg.wf = true) (hev : stopsFollowStarts events) :
    Inv (.fresh mem cfg draws events inputs) where
  config := hcfg
  memory := hmem
  control := fresh_controlBounds ..
  depth := fresh_depthBound mem cfg draws events inputs
  timers := fresh_timerBounds ..
  record := fresh_haltedRecordFits mem cfg draws events inputs
  audio := fresh_audioOrder _ _ _ _ _ hev

end Fresh

theorem stopsFollowStarts_nil : stopsFollowStarts [] := fun _ _ h => nomatch List.append_eq_nil_iff.1 h.symm

/-- Settles O58: both are fresh cores with a canonical memory, a legal configuration and an ordered log. -/
theorem resetMeetsTheInvariants : Obligations.ResetMeetsTheInvariants := by
  constructor
  · exact fresh_inv [] Config.default 0 [] [] (Memory.nil_wf _) rfl stopsFollowStarts_nil
  · intro s t rom hs h
    obtain ⟨hrom, rfl⟩ := State.boot_cases h
    exact fresh_inv _ _ _ _ _ (Memory.placeRom_reset_wf s.cfg hrom) hs.config hs.audio.1

/-! The parts of a step that are no instruction. -/

/-- A property that key changes, presents and reset keep is kept by every host event. -/
theorem hostEvent_keeps {P : State → Prop} (hkeys : ∀ s k, P s → P { s with keys := k })
    (hpresent : ∀ s, P s → P { s with events := s.events ++ [.present s.fb], dirty := false })
    (hboot : ∀ s rom t, P s → s.boot rom = some t → P t) (s : State) (e : HostEvent) (t : State) (hs : P s)
    (h : hostEvent s e = .ok t) : P t := by
  rcases hostEvent_cases s h with ⟨k, -, rfl⟩ | ⟨-, rfl | ⟨-, -, rfl⟩⟩ | ⟨rom, -, hrom⟩
  · exact hkeys s k hs
  · exact hs
  · exact hpresent s hs
  · exact hboot s rom t hs hrom

/-- The timer update writes the counters, ST_ACTIVE and the event log alone. -/
theorem afterExec_frame (t : State) : ∃ dt st act ev,
    afterExec t = { t with dtTicks := dt, stTicks := st, stActive := act, events := ev } := by
  rw [afterExec_eq]
  split_ifs
  · exact ⟨_, _, _, _, t.timerUpdate_frame⟩
  · exact ⟨_, _, _, _, rfl⟩

theorem Completes.afterExec_eq {i : Instr} {s t : State} (h : Completes i s t) (hs : s.status = .running) :
    afterExec t = t.timerUpdate := afterExec_running t (h.status_eq.trans hs)

theorem State.fetch_ok_pc {s : State} {w : Word} (h : s.fetch = .ok w) : s.pc.toNat + 1 < memSize := by
  by_contra hout
  cases h.symm.trans (s.fetch_error (Nat.not_lt.1 hout))

/-- An invariant of the configuration, the memory, PC and the stack alone: the host's events but for reset, the halt
and the timer update touch none of them. -/
theorem step_keeps_of_effect {P : State → Prop}
    (hP : ∀ (s : State) {t : State}, t.cfg = s.cfg → t.mem = s.mem → t.pc = s.pc → t.stack = s.stack → P s → P t)
    (hboot : ∀ {s : State} {rom : List Byte}, rom.length ≤ 3584 → P s →
      P (.fresh (Memory.placeRom s.cfg romBase rom []) s.cfg s.draws s.events s.inputs))
    (heffect : ∀ {i : Instr} {s t : State}, s.pc.toNat + 1 < memSize → Effect i s t → P s → P t)
    {s t : State} (hs : P s) (h : step s = .next t) : P t := by
  refine step_keeps (P := P) s (fun u _ => hP u rfl rfl rfl rfl)
    (hostEvent_keeps (fun u _ => hP u rfl rfl rfl rfl) (fun u => hP u rfl rfl rfl rfl) ?_)
    (fun u _ hu _ => hP u rfl rfl rfl rfl hu) (fun u _ => hP u rfl rfl rfl rfl) ?_ hs h
  · intro u rom v hu hv
    obtain ⟨hrom, rfl⟩ := State.boot_cases hv
    exact hboot hrom hu
  · intro u w i v hu _ hw hv
    obtain ⟨_, _, _, _, hafter⟩ := afterExec_frame v
    rw [hafter]
    exact hP v rfl rfl rfl rfl (heffect (State.fetch_ok_pc hw) (effect_of_exec u hv) hu)

/-- Settles O51: reset keeps the configuration, and no effect writes it. -/
theorem parametersNeverChange : Obligations.ParametersNeverChange := fun s _ =>
  step_keeps_of_effect (P := fun u => u.cfg = s.cfg) (fun _ _ hcfg _ _ _ => hcfg.trans) (fun _ => id)
    (fun _ he => he.host_eq.2.1.trans) rfl

/-! The memory. -/

theorem Effect.memoryCanonical {i : Instr} {s t : State} (h : Effect i s t) (hs : memoryCanonical s) :
    memoryCanonical t := by
  cases h with
  | raises hu =>
    rcases hu with rfl | hu
    · exact hs
    · exact hu.memoryCanonical hs
  | completes h => cases h with
    | accesses hu => exact hu.memoryCanonical hs
    | _ => exact hs

/-- Settles O52: the ROM image and the bytes of FX33 and FX55 are written inside the address space, and nothing else
writes. -/
theorem stepKeepsMemoryCanonical : Obligations.StepKeepsMemoryCanonical := fun _ _ =>
  step_keeps_of_effect (fun _ _ hcfg hmem _ _ hs => by rwa [memoryCanonical, hcfg, hmem])
    (fun hrom _ => Memory.placeRom_reset_wf _ hrom) (fun _ he => he.memoryCanonical)

/-! PC and the stack. -/

theorem Effect.controlBounds {i : Instr} {s t : State} (h : Effect i s t) (hpc : s.pc.toNat + 1 < memSize)
    (hs : controlBounds s) : controlBounds t := by
  obtain ⟨hs1, hs2⟩ := hs
  have hpc' : s.pc.toNat + 1 < 4096 := hpc
  have h2 : (s.pc + 2).toNat ≤ 4096 := by rw [BitVec.toNat_add]; change (_ + 2) % 65536 ≤ _; omega
  have h4 : (s.pc + 4).toNat ≤ 4098 := by rw [BitVec.toNat_add]; change (_ + 4) % 65536 ≤ _; omega
  cases h with
  | raises hu => obtain ⟨_, _, rfl⟩ := beforeRaise_frame hu; exact ⟨hs1, hs2⟩
  | completes h => cases h with
    | skips c => cases c with
      | false => exact ⟨h2.trans (by decide), hs2⟩
      | true => exact ⟨h4.trans (by decide), hs2⟩
    | jumps hv => exact ⟨hv, hs2⟩
    | waits => exact ⟨hs1, hs2⟩
    | @calls nnn =>
      have := nnn.isLt
      exact ⟨by rw [zextAddr_toNat]; omega, List.forall_mem_cons.2 ⟨h2, hs2⟩⟩
    | returns _ hv =>
      rw [hv] at hs2
      obtain ⟨hv, hrest⟩ := List.forall_mem_cons.1 hs2
      exact ⟨hv.trans (by decide), hrest⟩
    | accesses hu => obtain ⟨_, _, rfl⟩ := hu.frame; exact ⟨h2.trans (by decide), hs2⟩
    | _ => exact ⟨h2.trans (by decide), hs2⟩

/-- Settles O53: an instruction was fetched from below 4095, so its advance stays small, and every target is
bounded. -/
theorem stepKeepsControlBounds : Obligations.StepKeepsControlBounds := fun _ _ =>
  step_keeps_of_effect (fun _ _ _ _ hpc hstack hs => by rwa [controlBounds, hpc, hstack])
    (fun _ _ => fresh_controlBounds ..) (fun hpc he => he.controlBounds hpc)

theorem Effect.depthBound {i : Instr} {s t : State} (h : Effect i s t) (hs : depthBound s) : depthBound t := by
  cases h with
  | raises hu => obtain ⟨_, _, rfl⟩ := beforeRaise_frame hu; exact hs
  | completes h => cases h with
    | calls _ hroom =>
      exact fun c hc => Nat.lt_of_le_of_ne (hs c hc) fun hfull => hroom (hfull ▸ hc)
    | returns _ hv =>
      intro c hc
      have hle := hs c hc
      rw [hv] at hle
      exact (Nat.le_succ _).trans hle
    | accesses hu => obtain ⟨_, _, rfl⟩ := hu.frame; exact hs
    | _ => exact hs

/-- Settles O54: a call that completes found the stack below its bound. -/
theorem stepKeepsDepthBound : Obligations.StepKeepsDepthBound := fun _ _ =>
  step_keeps_of_effect (fun _ _ hcfg _ _ hstack hs => by rwa [depthBound, hcfg, hstack])
    (fun _ _ => fresh_depthBound _ _ _ _ _) (fun _ he => he.depthBound)

/-! The timers. -/

/-- The bounds of the tick counters between an instruction and the timer update: FX18 with Vx = 0 marks playback
active with a count that shows as 0 (R253). -/
def timersBeforeUpdate (s : State) : Prop :=
  s.dtTicks ≤ 255 * s.cfg.k ∧ s.stTicks ≤ 255 * s.cfg.k ∧ (0 < s.soundCount → s.stActive = true)

theorem timerUpdate_timerBounds {s : State} (h : timersBeforeUpdate s) : timerBounds s.timerUpdate := by
  obtain ⟨hdt, hst, hact⟩ := h
  have hdt' : s.dtTicks - 1 ≤ 255 * s.cfg.k := (Nat.sub_le _ _).trans hdt
  have hst' : s.stTicks - 1 ≤ 255 * s.cfg.k := (Nat.sub_le _ _).trans hst
  rw [State.timerUpdate_eq]
  split_ifs with hstop
  · exact ⟨hdt', hst', iff_of_false Bool.false_ne_true (Nat.not_lt.2 (Nat.le_of_eq hstop.2))⟩
  · refine ⟨hdt', hst', fun hon => Nat.pos_of_ne_zero fun hzero => hstop ⟨hon, hzero⟩, fun hpos => hact ?_⟩
    exact Nat.lt_of_lt_of_le hpos (Nat.div_le_div_right (Nat.sub_le _ _))

theorem frameTicks_le (s : State) (v : Byte) : s.frameTicks v ≤ 255 * s.cfg.k :=
  Nat.mul_le_mul_right _ (Nat.le_of_lt_succ v.isLt)

theorem Completes.timersBeforeUpdate {i : Instr} {s t : State} (h : Completes i s t) (hs : timerBounds s) :
    timersBeforeUpdate t := by
  obtain ⟨hdt, hst, hact⟩ := hs
  cases h with
  | setsDelay => exact ⟨frameTicks_le s _, hst, hact.2⟩
  | setsSound => exact ⟨hdt, frameTicks_le s _, fun _ => rfl⟩
  | accesses hu => obtain ⟨_, _, rfl⟩ := hu.frame; exact ⟨hdt, hst, hact.2⟩
  | _ => exact ⟨hdt, hst, hact.2⟩

theorem Effect.afterExec_timerBounds {i : Instr} {s t : State} (h : Effect i s t) (hrun : s.status = .running)
    (hs : timerBounds s) : timerBounds (afterExec t) := by
  cases h with
  | completes h => exact h.afterExec_eq hrun ▸ timerUpdate_timerBounds (h.timersBeforeUpdate hs)
  | raises hu => obtain ⟨_, _, rfl⟩ := beforeRaise_frame hu; exact hs

/-- Settles O55: the timer update restores what an instruction may leave open, playback active with a count of 0. -/
theorem stepKeepsTimerBounds : Obligations.StepKeepsTimerBounds := by
  intro s t hs h
  refine step_keeps s (fun _ _ => id) (hostEvent_keeps (fun _ _ => id) (fun _ => id) ?_) (fun _ _ hu _ => hu)
    (fun _ _ => id) (fun u _ _ _ hu hrun _ hv => (effect_of_exec u hv).afterExec_timerBounds hrun hu) hs h
  intro u rom v _ hv
  obtain ⟨-, rfl⟩ := State.boot_cases hv
  exact fresh_timerBounds ..

/-! The fault record. -/

theorem Effect.afterExec_haltedRecordFits {i : Instr} {s t : State} (h : Effect i s t) (hrun : s.status = .running) :
    haltedRecordFits (afterExec t) := by
  cases h with
  | completes h =>
    intro f hf
    rw [h.afterExec_eq hrun, State.timerUpdate_frame] at hf
    cases hf.symm.trans (h.status_eq.trans hrun)
  | raises hu _ hrec =>
    obtain ⟨_, _, rfl⟩ := beforeRaise_frame hu
    intro f hf
    cases hf
    exact hrec

theorem haltedRecordFits_fetchHalt {s : State} {a : Nat} (h : s.fetch = .error a) :
    haltedRecordFits (fetchHalt s a) := by
  have hpc : memSize ≤ s.pc.toNat + 1 := by
    by_contra hin
    cases h.symm.trans (s.fetch_ok (Nat.lt_of_not_le hin))
  cases h.symm.trans (s.fetch_error hpc)
  intro f hf
  cases hf
  exact recordFits_fetch (Nat.le_of_succ_le_succ hpc)

theorem haltedRecordFits_decodeHalt (s : State) (w : Word) : haltedRecordFits (decodeHalt s w) := by
  intro f hf
  cases hf
  exact recordFits_plain (by decide) (by decide)

/-- Settles O56: each way into Halted writes a record that fits PC, and a halted core keeps both. -/
theorem stepKeepsTheFaultRecord : Obligations.StepKeepsTheFaultRecord := by
  intro s t hs h
  refine step_keeps s (fun _ _ => id) (hostEvent_keeps (fun _ _ => id) (fun _ => id) ?_)
    (fun _ _ _ => haltedRecordFits_fetchHalt) (fun u w _ => haltedRecordFits_decodeHalt u w)
    (fun u _ _ _ _ hrun _ hv => (effect_of_exec u hv).afterExec_haltedRecordFits hrun) hs h
  intro u rom v _ hv
  obtain ⟨-, rfl⟩ := State.boot_cases hv
  exact fresh_haltedRecordFits _ _ _ _ _

/-! The event log. -/

@[simp] theorem lastAudio_start (es : List Event) (d : Byte) : lastAudio (es ++ [.audioStart d]) = some true := by
  simp [lastAudio]

@[simp] theorem lastAudio_present (es : List Event) (fb : FrameBuffer) :
    lastAudio (es ++ [.present fb]) = lastAudio es := by
  simp [lastAudio]

/-- An event put at the end of an ordered log leaves it ordered, if it is no stop or follows a start. -/
theorem stopsFollowStarts_append {es : List Event} {e : Event} (h : stopsFollowStarts es)
    (he : e = .audioStop → lastAudio es = some true) : stopsFollowStarts (es ++ [e]) := by
  intro before after heq
  rcases List.eq_nil_or_concat after with rfl | ⟨after, x, rfl⟩
  · obtain ⟨rfl, hlast⟩ := List.append_inj' heq rfl
    exact he (List.head_eq_of_cons_eq hlast)
  · rw [List.concat_eq_append, ← List.cons_append, ← List.append_assoc] at heq
    exact h before after (List.append_inj' heq rfl).1

theorem timerUpdate_audioOrder {s : State} (h : audioOrder s) : audioOrder s.timerUpdate := by
  obtain ⟨hlog, hact⟩ := h
  rw [State.timerUpdate_eq]
  split_ifs with hstop
  · exact ⟨stopsFollowStarts_append hlog fun _ => hact hstop.1, fun hon => nomatch hon⟩
  · exact ⟨hlog, hact⟩

theorem Completes.audioOrder {i : Instr} {s t : State} (h : Completes i s t) (hs : audioOrder s) : audioOrder t := by
  cases h with
  | setsSound => exact ⟨stopsFollowStarts_append hs.1 (fun he => nomatch he), fun _ => lastAudio_start _ _⟩
  | accesses hu => obtain ⟨_, _, rfl⟩ := hu.frame; exact hs
  | _ => exact hs

theorem Effect.afterExec_audioOrder {i : Instr} {s t : State} (h : Effect i s t) (hrun : s.status = .running)
    (hs : audioOrder s) : audioOrder (afterExec t) := by
  cases h with
  | completes h => exact h.afterExec_eq hrun ▸ timerUpdate_audioOrder (h.audioOrder hs)
  | raises hu => obtain ⟨_, _, rfl⟩ := beforeRaise_frame hu; exact hs

theorem present_audioOrder (s : State) (hs : audioOrder s) :
    audioOrder { s with events := s.events ++ [.present s.fb], dirty := false } :=
  ⟨stopsFollowStarts_append hs.1 (fun he => nomatch he), fun hact => (lastAudio_present _ _).trans (hs.2 hact)⟩

/-- Settles O57: FX18 emits a start where it marks playback active, and the one stop is emitted where it ends. -/
theorem stepKeepsAudioOrder : Obligations.StepKeepsAudioOrder := by
  intro s t hs h
  refine step_keeps s (fun _ _ => id) (hostEvent_keeps (fun _ _ => id) present_audioOrder ?_) (fun _ _ hu _ => hu)
    (fun _ _ => id) (fun u _ _ _ hu hrun _ hv => (effect_of_exec u hv).afterExec_audioOrder hrun hu) hs h
  intro u rom v hu hv
  obtain ⟨-, rfl⟩ := State.boot_cases hv
  exact fresh_audioOrder _ _ _ _ _ hu.1

end Sys2Proof.Machine
end

section
/-!
PROOFS. The rest of the ALU (spec/43_alu.md R184 to R186, R189, R191, R192): the bitwise operations, the shifts and
the random byte.
-/

namespace Sys2Proof.Machine

variable (s : State)

theorem exec_or (x y : Reg) : exec (.or x y) s = .next (s.setReg x (s.reg x ||| s.reg y)).advance := rfl

theorem exec_and (x y : Reg) : exec (.and x y) s = .next (s.setReg x (s.reg x &&& s.reg y)).advance := rfl

theorem exec_xor (x y : Reg) : exec (.xor x y) s = .next (s.setReg x (s.reg x ^^^ s.reg y)).advance := rfl

/-- Settles O16: the three instructions write one register with the bitwise operation of the operands. -/
theorem bitwiseResults : Obligations.BitwiseResults := by
  intro s x y
  refine ⟨⟨_, _, exec_or s x y, wroteReg_setReg_advance s x _, fun k _ => ?_⟩,
    ⟨_, _, exec_and s x y, wroteReg_setReg_advance s x _, fun k _ => ?_⟩,
    ⟨_, _, exec_xor s x y, wroteReg_setReg_advance s x _, fun k _ => ?_⟩⟩
  · exact BitVec.getLsbD_or
  · exact BitVec.getLsbD_and
  · exact BitVec.getLsbD_xor

theorem exec_shr (x y : Reg) : exec (.shr x y) s = .next (s.setResultFlag x (shrPair (s.reg x))).advance := rfl

theorem exec_shl (x y : Reg) : exec (.shl x y) s = .next (s.setResultFlag x (shlPair (s.reg x))).advance := rfl

theorem shrPair_fst_toNat (a : Byte) : (shrPair a).1.toNat = a.toNat / 2 := by
  rw [shrPair, BitVec.toNat_ushiftRight, Nat.shiftRight_eq_div_pow, pow_one]

/-- The bit shifted out to the right is the parity. -/
theorem shrPair_snd (a : Byte) : (shrPair a).2 = decide (a.toNat % 2 = 1) := Nat.testBit_zero _

theorem shlPair_fst_toNat (a : Byte) : (shlPair a).1.toNat = a.toNat * 2 % 256 := by
  rw [shlPair, BitVec.toNat_shiftLeft, Nat.shiftLeft_eq, pow_one]

/-- The bit shifted out to the left is the byte's top bit. -/
theorem shlPair_snd (a : Byte) : (shlPair a).2 = decide (128 ≤ a.toNat) :=
  (BitVec.msb_eq_getLsbD_last a).symm.trans (BitVec.msb_eq_decide a)

/-- Settles O18: each shift writes the pair of Vx alone, whatever Y is. -/
theorem shiftResultsAndFlags : Obligations.ShiftResultsAndFlags := by
  intro s x y a
  refine ⟨⟨_, _, exec_shr s x y, shrPair_fst_toNat _, ?_⟩, ⟨_, _, exec_shl s x y, shlPair_fst_toNat _, ?_⟩⟩
  · exact wroteResultFlag_setResultFlag_advance s x (shrPair_snd _)
  · exact wroteResultFlag_setResultFlag_advance s x (shlPair_snd _)

theorem exec_rnd (x : Reg) (nn : Byte) :
    exec (.rnd x nn) s = .next (s.drawRandom.2.setReg x (Config.randByte s.draws &&& nn)).advance := rfl

/-- Settles O19: the drawn byte is masked before it is written. -/
theorem randomIsAFreeByteMasked : Obligations.RandomIsAFreeByteMasked := by
  intro s x nn
  have hx : (s.drawRandom.2.setReg x (Config.randByte s.draws &&& nn)).advance.reg x =
      Config.randByte s.draws &&& nn := by
    rw [State.advance_reg, State.setReg_reg, if_pos rfl]
  refine ⟨_, exec_rnd s x nn, hx, fun k hk => ?_, fun r hr => ?_, rfl, rfl, rfl, fun _ => rfl⟩
  · rw [hx, BitVec.getLsbD_and, hk, Bool.and_false]
  · rw [State.advance_reg, State.setReg_reg, if_neg hr, State.drawRandom_reg]

end Sys2Proof.Machine
end

section
/-!
PROOFS. Calls with their returns, and the skips on two registers and on a key (spec/41_control_transfer.md R140,
R141, R143, R145; spec/42_skips.md R163 to R166).
-/

namespace Sys2Proof.Machine

variable (s : State)

/-! Calls. -/

/-- What SYS and CALL leave where the stack has room: PC + 2 pushed, and the target in PC. -/
def State.called (nnn : Addr12) : State := { s with stack := (s.pc + 2) :: s.stack, pc := zextAddr nnn }

theorem exec_call_room {i : Instr} {nnn : Addr12} (hi : i = .sys nnn ∨ i = .call nnn)
    (h : s.cfg.stackCapacity ≠ some s.stack.length) : exec i s = .next (s.called nnn) := by
  rcases hi with rfl | rfl
  · exact (execSys_eq s nnn).trans (by rw [if_neg h, State.called])
  · exact (execCall_eq s nnn).trans (by rw [if_neg h, State.called])

theorem exec_call_full {i : Instr} {nnn : Addr12} (hi : i = .sys nnn ∨ i = .call nnn)
    (h : s.cfg.stackCapacity = some s.stack.length) :
    exec i s = .next (s.halt .stackOverflow (some (encode i)) none none) := by
  rcases hi with rfl | rfl
  · exact (execSys_eq s nnn).trans (by rw [if_pos h])
  · exact (execCall_eq s nnn).trans (by rw [if_pos h])

/-- RET pops whatever state it runs in. -/
theorem exec_ret_cons {u : State} {v : Word} {rest : List Word} (h : u.stack = v :: rest) :
    ∃ t, exec .ret u = .next t ∧ t.pc = v ∧ t.stack = rest := ⟨_, (exec_ret u).trans (execRet_cons u h), rfl, rfl⟩

/-- Settles O21: the two ends of a call; what it pushed is what the return pops. -/
theorem callPushesAndJumps : Obligations.CallPushesAndJumps := by
  intro s nnn i hi
  refine ⟨fun h => ?_, fun h => exec_call_full s hi h⟩
  exact ⟨_, exec_call_room s hi h, zextAddr_toNat nnn, rfl, rfl, fun _ => rfl, fun _ => rfl, exec_ret_cons rfl⟩

/-- Settles O23: a call after which the core still runs has pushed PC + 2. -/
theorem callThenReturnComesBack : Obligations.CallThenReturnComesBack := by
  intro s t u nnn i hi _ ht hrun hstack
  by_cases h : s.cfg.stackCapacity = some s.stack.length
  · cases (exec_call_full s hi h).symm.trans ht
    cases hrun
  · cases (exec_call_room s hi h).symm.trans ht
    exact exec_ret_cons hstack

/-! Skips. -/

theorem exec_sneVxVy (x y : Reg) : exec (.sneVxVy x y) s = .next (s.skipIf (s.reg x != s.reg y)) := rfl

/-- Settles O25: the skip of the comparison; a 9XYn word with n not 0 stands in the table of invalid words. -/
theorem registersDifferSkip : Obligations.RegistersDifferSkip := by
  intro s x y
  refine ⟨⟨_, exec_sneVxVy s x y, skipIf_pc_of_iff s bne_iff_ne, onlyPc_skipIf s _⟩, fun w hop hn => ?_⟩
  exact decode_eq_none_iff_table.2 (.inr (.inr (.inl ⟨hop, hn⟩)))

theorem exec_skp_key {x : Reg} {k : Fin 16} (h : (s.reg x).toNat = k.val) :
    exec (.skp x) s = .next (s.skipIf (s.keys.getLsbD k.val == true)) :=
  (skipOnKey_eq s _ x true).trans (by rw [h, if_neg (Nat.not_le.2 k.isLt)])

theorem exec_sknp_key {x : Reg} {k : Fin 16} (h : (s.reg x).toNat = k.val) :
    exec (.sknp x) s = .next (s.skipIf (s.keys.getLsbD k.val == false)) :=
  (skipOnKey_eq s _ x false).trans (by rw [h, if_neg (Nat.not_le.2 k.isLt)])

theorem exec_skipOnKey_outOfRange {i : Instr} {x : Reg} (hi : i = .skp x ∨ i = .sknp x) (h : 16 ≤ (s.reg x).toNat) :
    exec i s = .next (s.halt .keyIndexOutOfRange (some (encode i)) none (some (s.reg x))) := by
  rcases hi with rfl | rfl
  · exact (skipOnKey_eq s _ x true).trans (by rw [if_pos h])
  · exact (skipOnKey_eq s _ x false).trans (by rw [if_pos h])

/-- Settles O26: both skips test the level of the key, one for down and one for up. -/
theorem keySkips : Obligations.KeySkips := by
  intro s x
  refine ⟨fun k hk => ⟨?_, ?_⟩, fun h i hi => exec_skipOnKey_outOfRange s hi h⟩
  · exact ⟨_, exec_skp_key s hk, skipIf_pc_of_iff s beq_iff_eq, onlyPc_skipIf s _⟩
  · refine ⟨_, exec_sknp_key s hk, ?_, onlyPc_skipIf s _⟩
    rw [skipIf_pc_of_iff s (beq_iff_eq.trans Bool.eq_false_iff), ite_not]

end Sys2Proof.Machine
end

section
/-!
PROOFS. The draws of DXYN (spec/45_display.md R231, R232, R237) and the timer and key instructions
(spec/46_timers_input.md R251 to R253).
-/

namespace Sys2Proof.Machine

variable (s : State)

/-! Draws. -/

/-- Settles O39: the bytes are read before anything is written. -/
theorem drawPastTheMemoryChangesNothing : Obligations.DrawPastTheMemoryChangesNothing :=
  fun s _ _ _ hn h => execDrw_error s hn h

theorem flagByte_zero_or_one (b : Bool) : flagByte b = 0 ∨ flagByte b = 1 := by cases b <;> decide

/-- A draw writes no register but VF. -/
theorem State.drawn_reg (d : FrameBuffer × Bool) {r : Reg} (hr : r ≠ flagReg) : (s.drawn d).reg r = s.reg r := by
  rw [State.drawn, State.advance_reg, State.setReg_reg, if_neg hr, State.redraw_reg]

/-- Settles O37: the screen of a draw pixel by pixel, and the frame of what it leaves. -/
theorem drawXorsTheSprite : Obligations.DrawXorsTheSprite := by
  intro s x y n h
  refine ⟨_, exec_drw_ok s h, fun i j hi hj => pixel_draw _ _ _ _ hi hj, ?_, fun r hr => s.drawn_reg _ hr, rfl,
    rfl, rfl, fun _ => rfl⟩
  rw [State.drawn_flag]
  exact flagByte_zero_or_one _

/-- Exclusive-or undoes itself, pixel by pixel (R237). -/
theorem draw_twice (x y : Nat) (bytes : List Byte) (fb : FrameBuffer) :
    (draw x y bytes (draw x y bytes fb).1).1 = fb := by
  refine frameBuffer_ext fun i j hi hj => ?_
  rw [pixel_draw _ _ _ _ hi hj, pixel_draw _ _ _ _ hi hj, Bool.xor_assoc, Bool.xor_self, Bool.xor_false]

theorem bytesFrom_congr {s u : State} (h : sameBytes s u) (a n : Nat) : bytesFrom u a n = bytesFrom s a n :=
  List.map_congr_left fun k _ => h (a + k)

/-- Settles O40: the second draw darkens exactly the pixels that the first one lit. -/
theorem drawTwiceRestoresTheScreen : Obligations.DrawTwiceRestoresTheScreen := by
  intro s t u x y n h ht hfb hx hy hi hbytes
  cases (exec_drw_ok s h).symm.trans ht
  have haddr : ∀ k, u.effAddr k = s.effAddr k := fun k => by rw [State.effAddr, hi, State.effAddr]
  have hu := exec_drw_ok u (x := x) (y := y) (n := n) (by rwa [haddr])
  rw [hfb, hx, hy, haddr, bytesFrom_congr hbytes, State.drawn_fb] at hu
  have hback := draw_twice (s.reg x).toNat (s.reg y).toNat (bytesFrom s (s.effAddr 0) n.val) s.fb
  have hdark := collision_draw_iff_wentDark (s.reg x).toNat (s.reg y).toNat (bytesFrom s (s.effAddr 0) n.val)
    (draw (s.reg x).toNat (s.reg y).toNat (bytesFrom s (s.effAddr 0) n.val) s.fb).1
  rw [hback] at hdark
  refine ⟨_, hu, hback, fun ⟨i, j, hi, hj, hbefore, hafter⟩ => ?_, fun hlit => ?_⟩
  · rw [State.drawn_flag, hdark.2 ⟨i, j, hi, hj, hafter, hbefore⟩]
    rfl
  · rw [State.drawn_flag, Bool.eq_false_iff.2 (mt hdark.1 ?_)]
    · rfl
    · rintro ⟨i, j, hi, hj, hafter, hbefore⟩
      exact Bool.false_ne_true (hbefore.symm.trans (hlit i j hi hj hafter))

/-! Keys and timers. -/

/-- The lowest key that is down is the one FX0A finds. -/
theorem State.firstKey_eq_some {k : Fin 16} (hk : s.keyDown k = true) (hlow : ∀ j, j < k → s.keyDown j = false) :
    s.firstKey = some k := by
  cases h : s.firstKey with
  | none => exact absurd (hk.symm.trans (s.firstKey_none.1 h k)) (by decide)
  | some j =>
    obtain ⟨hj, hjlow⟩ := s.firstKey_some h
    rcases lt_trichotomy j k with hlt | rfl | hlt
    · exact absurd (hj.symm.trans (hlow j hlt)) (by decide)
    · rfl
    · exact absurd (hk.symm.trans (hjlow k hlt)) (by decide)

theorem exec_ldVxK_key {x : Reg} {k : Fin 16} (h : s.firstKey = some k) :
    exec (.ldVxK x) s = .next (s.setReg x (BitVec.ofNat 8 k.val)).advance :=
  (execLdVxK_eq s x).trans (by rw [h])

theorem exec_ldVxK_wait {x : Reg} (h : s.firstKey = none) : exec (.ldVxK x) s = .next s :=
  (execLdVxK_eq s x).trans (by rw [h])

/-- Settles O42: the two answers of the search for the lowest key. -/
theorem waitForKey : Obligations.WaitForKey := by
  intro s x
  refine ⟨fun k hk hlow => ?_, fun hno => exec_ldVxK_wait s (s.firstKey_none.2 hno)⟩
  have hbyte : (BitVec.ofNat 8 k.val).toNat = k.val := by
    have := k.isLt
    rw [BitVec.toNat_ofNat]; omega
  exact ⟨_, _, exec_ldVxK_key s (s.firstKey_eq_some hk hlow), hbyte, wroteReg_setReg_advance s x _⟩

theorem exec_ldDtVx (x : Reg) : exec (.ldDtVx x) s = .next (s.setDelay (s.frameTicks (s.reg x))).advance := rfl

theorem exec_ldStVx (x : Reg) : exec (.ldStVx x) s =
    .next ((s.setSound (s.frameTicks (s.reg x)) true).emit (.audioStart (s.reg x))).advance := rfl

/-- Settles O43: each sets its own counter, FX18 with the start of playback. -/
theorem timersSet : Obligations.TimersSet := by
  intro s x
  exact ⟨⟨_, exec_ldDtVx s x, rfl, rfl, rfl, fun _ => rfl, fun _ => rfl⟩,
    ⟨_, exec_ldStVx s x, rfl, rfl, rfl, rfl, rfl, fun _ => rfl, fun _ => rfl⟩⟩

end Sys2Proof.Machine
end

section
/-!
PROOFS. The step (spec/40_cycle.md R120, R124, R125): the instruction it runs, the host events that land before it,
what a halted core does, and which steps answer nothing.
-/

namespace Sys2Proof.Machine

/-! The instruction a step runs. -/

theorem decodeBytes_pair {hi lo : Byte} {i : Instr} (h : decodeBytes [hi, lo] = .ok (i, [])) :
    decode (joinBytes hi lo) = some i := by
  simp only [decodeBytes] at h
  split at h
  · cases h; assumption
  · cases h

section Runs

variable {s s1 t : State} {w : Word} {i : Instr}

/-- The step of a core that runs after the events due have landed, and fetches a word of an instruction. -/
theorem step_of_exec (hland : landInputs s = .ok s1) (hrun : s1.status = .running) (hw : s1.fetch = .ok w)
    (hd : decode w = some i) (ht : exec i s1 = .next t) :
    step s = .next (if t.status = .running then t.timerUpdate else t) := by
  rw [step_of_land s hland, cycle_exec s1 hrun hw hd, ht]
  exact congrArg _ (afterExec_eq t)

/-- A step with no event due, by the effect of its instruction. -/
theorem step_effect (hin : s.inputs = []) (hrun : s.status = .running) (hw : s.fetch = .ok w) (hd : decode w = some i)
    (h : step s = .next t) : ∃ u, exec i s = .next u ∧ Effect i s u ∧ t = afterExec u := by
  obtain ⟨u, hu, he⟩ := exec_effect s i
  cases (step_of_exec (landInputs_nil s hin) hrun hw hd hu).symm.trans h
  exact ⟨u, hu, he, (afterExec_eq u).symm⟩

end Runs

/-- Settles O5: the two bytes at PC are the fetched word; an instruction answers nothing but a next state. -/
theorem stepRunsTheDecodedInstruction : Obligations.StepRunsTheDecodedInstruction := by
  intro s s1 i hland hrun hpc hdec
  obtain ⟨u, hu, -⟩ := exec_effect s1 i
  refine ⟨fun t ht => step_of_exec hland hrun (s1.fetch_ok hpc) (decodeBytes_pair hdec) ht, fun r hr => ?_,
    fun r hr => ?_⟩
  · cases hu.symm.trans hr
  · cases hu.symm.trans hr

/-! A placed word. -/

/-- Where `withFetchWord` places the word: at PC, or at the reset PC where no word fits at PC. -/
def State.fetchPlace (s : State) : Nat := if s.pc.toNat + 1 < memSize then s.pc.toNat else romBase

theorem State.fetchPlace_fits (s : State) : s.fetchPlace + 1 < memSize := by
  unfold State.fetchPlace
  split_ifs with h
  · exact h
  · decide

theorem State.withFetchWord_eq (s : State) (w : Word) : s.withFetchWord 16 w.toNat =
    { s.placeWord s.fetchPlace w with pc := BitVec.ofNat 16 s.fetchPlace, status := .running, inputs := [] } := by
  have hw : BitVec.ofNat 16 (w.toNat % 2 ^ 16) = w := by
    rw [Nat.mod_eq_of_lt w.isLt, BitVec.ofNat_toNat, BitVec.setWidth_eq]
  rw [State.withFetchWord, hw]
  rfl

theorem State.withFetchWord_pc (s : State) (w : Word) : (s.withFetchWord 16 w.toNat).pc.toNat = s.fetchPlace := by
  have h : s.fetchPlace + 1 < 4096 := s.fetchPlace_fits
  rw [s.withFetchWord_eq, BitVec.toNat_ofNat]
  omega

theorem State.withFetchWord_byteAt (s : State) (w : Word) (a : Nat) : (s.withFetchWord 16 w.toNat).byteAt a =
    if a = s.fetchPlace + 1 then lowByte w else if a = s.fetchPlace then highByte w else s.byteAt a := by
  rw [s.withFetchWord_eq]
  exact s.placeWord_byteAt _ w a

theorem State.withFetchWord_fetch (s : State) (w : Word) : (s.withFetchWord 16 w.toNat).fetch = .ok w := by
  have hpc := s.withFetchWord_pc w
  rw [State.fetch_ok _ (hpc ▸ s.fetchPlace_fits), hpc, s.withFetchWord_byteAt, s.withFetchWord_byteAt,
    if_neg (Nat.ne_of_lt (Nat.lt_succ_self _)), if_pos rfl, if_pos rfl, joinBytes_split]

/-- Settles O6: the placed word is what the fetch reads, and no event is due before it runs. -/
theorem stepRunsThePlacedWord : Obligations.StepRunsThePlacedWord := by
  intro s w i hd s1
  have hs1 : s1 = _ := s.withFetchWord_eq w
  have hpc : s1.pc.toNat = s.fetchPlace := s.withFetchWord_pc w
  have hin : s1.inputs = [] := by rw [hs1]
  have hrun : s1.status = .running := by rw [hs1]
  refine ⟨fun h => ?_, ?_, fun a ha ha' => ?_, fun t ht => ?_⟩
  · apply BitVec.eq_of_toNat_eq
    exact hpc.trans (if_pos h)
  · rw [hs1]; rfl
  · rw [hpc] at ha ha'
    exact (s.withFetchWord_byteAt w a).trans (by rw [if_neg ha', if_neg ha])
  · exact step_of_exec (landInputs_nil s1 hin) hrun (s.withFetchWord_fetch w) hd ht

/-! Host events. -/

theorem State.onFrame_present {s : State} (hrun : s.status = .running) (hd : s.dirty = true) :
    s.onFrame = { s with events := s.events ++ [.present s.fb], dirty := false } := if_pos ⟨hrun, hd⟩

theorem State.onFrame_idle {s : State} (h : s.status ≠ .running ∨ s.dirty = false) : s.onFrame = s :=
  if_neg fun hc => h.elim (· hc.1) fun hd => Bool.false_ne_true (hd.symm.trans hc.2)

theorem landInputs_cons {s : State} {es : List HostEvent} {rest : List (List HostEvent)} (h : s.inputs = es :: rest) :
    landInputs s = hostEvents { s with inputs := rest } es := by simp only [landInputs, h]

theorem hostEvents_cons {s s' : State} {e : HostEvent} (es : List HostEvent) (h : hostEvent s e = .ok s') :
    hostEvents s (e :: es) = hostEvents s' es := by simp only [hostEvents, h]

theorem hostEvents_cons_error {s : State} {e : HostEvent} {r : Refusal} (es : List HostEvent)
    (h : hostEvent s e = .error r) : hostEvents s (e :: es) = .error r := by simp only [hostEvents, h]

/-- Settles O11: the two cases of a frame strobe, and the list due event by event. -/
theorem hostEventsLandBetweenCycles : Obligations.HostEventsLandBetweenCycles := by
  intro s
  refine ⟨fun _ => rfl, fun hrun hd => congrArg _ (State.onFrame_present hrun hd),
    fun h => congrArg _ (State.onFrame_idle h), landInputs_nil s, fun rest h => landInputs_cons h, ?_⟩
  intro e es rest h s1 h1
  rw [landInputs_cons h, hostEvents_cons es h1]

/-! The halted core (R124). -/

/-- Settles O8: with no event due a step is a cycle, and a halted core's cycle does nothing. -/
theorem haltedCoreChangesNothing : Obligations.HaltedCoreChangesNothing := by
  intro s f hf hin
  rw [step_of_noInputs s hin, cycle_halted s hf]

/-- Of a halted core, events without a reset change KEYS alone. -/
theorem hostEvents_halted {s : State} {f : FatalRecord} (hf : s.status = .halted f) {es : List HostEvent}
    (hes : ∀ rom, HostEvent.reset rom ∉ es) : ∃ k, hostEvents s es = .ok { s with keys := k } := by
  induction es generalizing s with
  | nil => exact ⟨s.keys, rfl⟩
  | cons e es ih =>
    have hes' : ∀ rom, HostEvent.reset rom ∉ es := fun rom h => hes rom (List.mem_cons_of_mem _ h)
    cases e with
    | keys k => exact ih (s := { s with keys := k }) hf hes'
    | frame =>
      have hidle : s.onFrame = s := State.onFrame_idle (.inl (by rw [hf]; exact nofun))
      rw [hostEvents_cons (e := .frame) es (congrArg Except.ok hidle)]
      exact ih hf hes'
    | reset rom => exact absurd List.mem_cons_self (hes rom)

theorem landInputs_halted {s : State} {f : FatalRecord} (hf : s.status = .halted f)
    (hes : ∀ es rest, s.inputs = es :: rest → ∀ rom, HostEvent.reset rom ∉ es) :
    ∃ k, landInputs s = .ok { s with keys := k, inputs := s.inputs.tail } := by
  cases hin : s.inputs with
  | nil => exact ⟨s.keys, (landInputs_nil s hin).trans (by rw [List.tail_nil, ← hin])⟩
  | cons es rest =>
    rw [landInputs_cons hin]
    exact hostEvents_halted (s := { s with inputs := rest }) hf (hes es rest hin)

/-- Settles O9: the events due change KEYS, and the cycle after them nothing. -/
theorem onlyResetLeavesHalted : Obligations.OnlyResetLeavesHalted := by
  intro s f hf hes
  obtain ⟨k, hk⟩ := landInputs_halted hf hes
  exact ⟨_, (step_of_land s hk).trans (cycle_halted _ hf), rfl, rfl⟩

/-! Steps that answer no state (R342). -/

/-- A cycle always answers a next state. -/
theorem cycle_answers (s : State) : ∃ t, cycle s = .next t := by
  cases hs : s.status with
  | halted f => exact ⟨_, cycle_halted s hs⟩
  | running =>
    cases hw : s.fetch with
    | error a => exact ⟨_, cycle_fetchError s hs hw⟩
    | ok w =>
      cases hd : decode w with
      | none => exact ⟨_, cycle_invalid s hs hw hd⟩
      | some i =>
        obtain ⟨t, ht, -⟩ := exec_effect s i
        exact ⟨afterExec t, by rw [cycle_exec s hs hw hd, ht]⟩

theorem hostEvent_error {s : State} {e : HostEvent} {r : Refusal} (h : hostEvent s e = .error r) :
    r = .romLoadFailure ∧ ∃ rom, e = .reset rom ∧ (rom.length = 0 ∨ 3584 < rom.length) := by
  cases e with
  | keys | frame => cases h
  | reset rom =>
    simp only [hostEvent] at h
    split at h
    · cases h
    · next hb => cases h; exact ⟨rfl, rom, rfl, s.boot_none.1 hb⟩

theorem hostEvents_error {s : State} {es : List HostEvent} {r : Refusal} (h : hostEvents s es = .error r) :
    r = .romLoadFailure ∧ ∃ rom, HostEvent.reset rom ∈ es ∧ (rom.length = 0 ∨ 3584 < rom.length) := by
  induction es generalizing s with
  | nil => cases h
  | cons e es ih =>
    cases he : hostEvent s e with
    | error r' =>
      cases (hostEvents_cons_error es he).symm.trans h
      obtain ⟨hr, rom, rfl, hrom⟩ := hostEvent_error he
      exact ⟨hr, rom, List.mem_cons_self, hrom⟩
    | ok s' =>
      obtain ⟨hr, rom, hmem, hrom⟩ := ih ((hostEvents_cons es he).symm.trans h)
      exact ⟨hr, rom, List.mem_cons_of_mem _ hmem, hrom⟩

/-- Landing the events due fails only at a reset whose ROM is refused. -/
theorem landInputs_error {s : State} {r : Refusal} (h : landInputs s = .error r) : r = .romLoadFailure ∧
    ∃ es rest rom, s.inputs = es :: rest ∧ HostEvent.reset rom ∈ es ∧ (rom.length = 0 ∨ 3584 < rom.length) := by
  cases hin : s.inputs with
  | nil => cases (landInputs_nil s hin).symm.trans h
  | cons es rest =>
    obtain ⟨hr, rom, hmem, hrom⟩ := hostEvents_error ((landInputs_cons hin).symm.trans h)
    exact ⟨hr, es, rest, rom, rfl, hmem, hrom⟩

theorem step_of_landError {s : State} {r : Refusal} (h : landInputs s = .error r) : step s = .refused r := by
  simp only [step, stepCycle, h]

/-- A step answers a next state, or the refusal of the events due. -/
theorem step_answers (s : State) :
    (∃ t, step s = .next t) ∨ ∃ r, landInputs s = .error r ∧ step s = .refused r := by
  cases h : landInputs s with
  | ok s1 =>
    obtain ⟨t, ht⟩ := cycle_answers s1
    exact .inl ⟨t, (step_of_land s h).trans ht⟩
  | error r => exact .inr ⟨r, rfl, step_of_landError h⟩

/-- Settles O10: the cycle always answers, so only a refused ROM stops a step. -/
theorem stepAnswersUnlessARomIsRefused : Obligations.StepAnswersUnlessARomIsRefused := by
  intro s
  rcases step_answers s with ⟨t, ht⟩ | ⟨r, hland, hr⟩
  · rw [ht]
    exact ⟨fun _ => ⟨t, rfl⟩, nofun, nofun⟩
  · rw [hr]
    refine ⟨fun hroms => ?_, fun r' h => ?_, nofun⟩
    · obtain ⟨-, es, rest, rom, hin, hmem, hbad⟩ := landInputs_error hland
      have := hroms es rest hin rom hmem
      omega
    · cases h
      exact landInputs_error hland

end Sys2Proof.Machine
end

section
/-!
PROOFS. The reset (spec/70_reset_and_hazards.md R340, R342; spec/10_state.md R36): the values of a fresh core, with
and without a ROM, and the ROMs refused.
-/

namespace Sys2Proof.Machine

section FreshValues

variable (mem : Memory) (cfg : Config) (draws : Nat) (events : List Event) (inputs : List (List HostEvent))

theorem fresh_reg (r : Reg) : (State.fresh mem cfg draws events inputs).reg r = 0 := Vector.getElem_replicate _

theorem fresh_pixel (x y : Nat) : pixel (State.fresh mem cfg draws events inputs).fb x y = false := pixel_blank x y

end FreshValues

/-- An address no cell lists reads as the FONT, or as 0 past it (R65). -/
theorem Memory.background_font (c : Config) {a : Nat} (h : a < 80) : Memory.background c a = c.font[a] := dif_pos h

theorem Memory.background_zero (c : Config) {a : Nat} (h : 80 ≤ a) : Memory.background c a = 0 :=
  dif_neg (Nat.not_lt.2 h)

/-- Outside the image the memory after reset reads as its reset contents. -/
theorem Memory.read_placeRom_outside (c : Config) {rom : List Byte} {a : Nat}
    (h : a < 0x200 ∨ 0x200 + rom.length ≤ a) :
    Memory.read c (Memory.placeRom c romBase rom []) a = Memory.background c a := by
  have hout : ¬(romBase ≤ a ∧ a < romBase + rom.length) := by
    rintro ⟨hlow, hhigh⟩
    have : 512 ≤ a ∧ a < 512 + rom.length := ⟨hlow, hhigh⟩
    omega
  rw [Memory.read_placeRom, dif_neg hout, Memory.read]

/-- Settles O14: the reset state is the fresh core that lists no byte. -/
theorem resetStateValues : Obligations.ResetStateValues :=
  ⟨fresh_reg [] Config.default 0 [] [], rfl, rfl, rfl, rfl, rfl, rfl, fresh_pixel [] Config.default 0 [] [], rfl,
    fun _ => BitVec.getLsbD_zero, rfl, rfl, fun _ h => Memory.background_font _ h,
    fun _ h => Memory.background_zero _ h⟩

/-- A step with a refused reset due first is refused by name (R342). -/
theorem step_bootRefused {s : State} {rom : List Byte} (h : rom.length = 0 ∨ 3584 < rom.length) {es : List HostEvent}
    {rest : List (List HostEvent)} (hin : s.inputs = (.reset rom :: es) :: rest) :
    step s = .refused .romLoadFailure := by
  have hboot : State.boot { s with inputs := rest } rom = none := (State.boot_none _).2 h
  refine step_of_landError ((landInputs_cons hin).trans (hostEvents_cons_error es ?_))
  simp only [hostEvent, hboot]

/-- Settles O13: a refused ROM stops the step; any other leaves the fresh core with its image. -/
theorem resetLaunchOrRefusal : Obligations.ResetLaunchOrRefusal := by
  intro s rom
  refine ⟨fun h => ⟨s.boot_none.2 h, fun es rest hin => step_bootRefused h hin⟩, fun hpos hmax => ?_⟩
  refine ⟨_, s.boot_some ⟨hpos, hmax⟩, fresh_reg _ _ _ _ _, rfl, rfl, rfl, rfl, rfl, rfl, fresh_pixel _ _ _ _ _, rfl,
    rfl, rfl, fun a h => ?_, fun a hlow hhigh => ?_, fun a h => ?_, Memory.placeRom_reset_wf s.cfg hmax, rfl, rfl,
    rfl, rfl⟩
  · exact (Memory.read_placeRom_outside s.cfg (.inl (by omega))).trans (Memory.background_font _ h)
  · exact (Memory.read_placeRom_outside s.cfg (.inl hhigh)).trans (Memory.background_zero _ hlow)
  · exact (Memory.read_placeRom_outside s.cfg (.inr h)).trans (Memory.background_zero _ (by omega))

end Sys2Proof.Machine
end

section
/-!
PROOFS. The timers along the cycles (spec/60_exceptions.md R308, R309): one tick a cycle, the one stop of the sound,
and the self-jump that waits for the delay to run out.
-/

namespace Sys2Proof.Machine

section Ticks

variable {s t : State} {w : Word} {i : Instr}

theorem State.timerUpdate_dtTicks (s : State) : s.timerUpdate.dtTicks = s.dtTicks - 1 := by rw [s.timerUpdate_frame]

theorem State.timerUpdate_stTicks (s : State) : s.timerUpdate.stTicks = s.stTicks - 1 := by rw [s.timerUpdate_frame]

theorem State.timerUpdate_status (s : State) : s.timerUpdate.status = s.status := by rw [s.timerUpdate_frame]

/-- A cycle that ends running is an instruction that completed, with the timer update after it. -/
theorem Effect.afterExec_of_running {u : State} (h : Effect i s u) (hs : s.status = .running)
    (hrun : (afterExec u).status = .running) : afterExec u = u.timerUpdate := by
  cases h with
  | completes h => exact h.afterExec_eq hs
  | raises => cases hrun

/-- A cycle that ends halted leaves the ticks alone. -/
theorem Effect.afterExec_delay_of_halted {u : State} (h : Effect i s u) (hs : s.status = .running)
    (hhalt : (afterExec u).status ≠ .running) : (afterExec u).dtTicks = s.dtTicks := by
  cases h with
  | completes h =>
    rw [h.afterExec_eq hs, State.timerUpdate_status, h.status_eq] at hhalt
    exact absurd hs hhalt
  | raises hu => obtain ⟨_, _, rfl⟩ := beforeRaise_frame hu; rfl

end Ticks

/-- Settles O44: the count after the instruction, less the one tick of the update. -/
theorem delayTicksDownEveryCycle : Obligations.DelayTicksDownEveryCycle := by
  intro s t w i hin hs hw hd h
  obtain ⟨u, hu, he, rfl⟩ := step_effect hin hs hw hd h
  refine ⟨fun hrun => ⟨fun x hx => ?_, fun hx => ?_⟩, he.afterExec_delay_of_halted hs⟩
  · subst hx
    cases (exec_ldDtVx s x).symm.trans hu
    rw [he.afterExec_of_running hs hrun, State.timerUpdate_dtTicks]
    rfl
  · rw [he.afterExec_of_running hs hrun, State.timerUpdate_dtTicks, he.delay_eq hx]

theorem State.timerUpdate_stops {s : State} (hact : s.stActive = true) (hzero : (s.stTicks - 1) / s.cfg.k = 0) :
    s.timerUpdate.stActive = false ∧ s.timerUpdate.events = s.events ++ [.audioStop] := by
  rw [s.timerUpdate_eq, if_pos ⟨hact, hzero⟩]
  exact ⟨rfl, rfl⟩

theorem State.timerUpdate_plays {s : State} (h : s.stActive = false ∨ 0 < (s.stTicks - 1) / s.cfg.k) :
    s.timerUpdate.stActive = s.stActive ∧ s.timerUpdate.events = s.events := by
  have hno : ¬(s.stActive = true ∧ (s.stTicks - 1) / s.cfg.k = 0) := by
    rintro ⟨hact, hzero⟩
    rcases h with h | h
    · exact Bool.false_ne_true (h.symm.trans hact)
    · exact Nat.ne_of_gt h hzero
  rw [s.timerUpdate_eq, if_neg hno]
  exact ⟨rfl, rfl⟩

/-- Settles O45: the sound state after the instruction is the one named, and the update does what its two cases say.
-/
theorem soundStopsOnceAtZero : Obligations.SoundStopsOnceAtZero := by
  intro s t w i hin hs hw hd h hrun st act ev hset hkeep
  obtain ⟨u, hu, he, rfl⟩ := step_effect hin hs hw hd h
  have hafter : u.stTicks = st ∧ u.stActive = act ∧ u.events = ev := by
    by_cases hx : ∃ x, i = .ldStVx x
    · obtain ⟨x, rfl⟩ := hx
      obtain ⟨rfl, rfl, rfl⟩ := hset x rfl
      cases (exec_ldStVx s x).symm.trans hu
      exact ⟨rfl, rfl, rfl⟩
    · have hne : ∀ x, i ≠ .ldStVx x := fun x hi => hx ⟨x, hi⟩
      obtain ⟨rfl, rfl, rfl⟩ := hkeep hne
      exact he.sound_eq hne
  obtain ⟨rfl, rfl, rfl⟩ := hafter
  rw [he.afterExec_of_running hs hrun, ← he.host_eq.2.1]
  exact ⟨u.timerUpdate_stTicks, fun hstop => State.timerUpdate_stops hstop.1 hstop.2, State.timerUpdate_plays⟩

/-! The self-jump. -/

/-- n timer updates take n ticks from each count. -/
theorem timerUpdate_iterate_frame (n : Nat) (s : State) : ∃ act ev, State.timerUpdate^[n] s =
    { s with dtTicks := s.dtTicks - n, stTicks := s.stTicks - n, stActive := act, events := ev } := by
  induction n generalizing s with
  | zero => exact ⟨_, _, rfl⟩
  | succ n ih =>
    obtain ⟨act, ev, h⟩ := ih s.timerUpdate
    refine ⟨act, ev, ?_⟩
    rw [Function.iterate_succ_apply, h, s.timerUpdate_frame, Nat.add_comm n 1, ← Nat.sub_sub, ← Nat.sub_sub]

/-- A core about to run a jump to itself, with no event scheduled. -/
structure AtSelfJump (nnn : Addr12) (s : State) : Prop where
  inputs : s.inputs = []
  running : s.status = .running
  pc : s.pc.toNat = nnn.toNat
  word : s.fetch = .ok (encode (.jp nnn))

/-- Its step is the timer update alone. -/
theorem AtSelfJump.step_eq {nnn : Addr12} {s : State} (h : AtSelfJump nnn s) : step s = .next s.timerUpdate := by
  have hpc : zextAddr nnn = s.pc := BitVec.eq_of_toNat_eq ((zextAddr_toNat nnn).trans h.pc.symm)
  have hexec : exec (.jp nnn) s = .next s := (exec_jp s nnn).trans (by rw [hpc]; rfl)
  rw [step_of_exec (landInputs_nil s h.inputs) h.running h.word (decodeOfEncodeIsTheInstruction _ rfl) hexec,
    if_pos h.running]

theorem AtSelfJump.timerUpdate {nnn : Addr12} {s : State} (h : AtSelfJump nnn s) : AtSelfJump nnn s.timerUpdate := by
  rw [s.timerUpdate_frame]
  exact ⟨h.inputs, h.running, h.pc, h.word⟩

theorem run_succ_of_next (M : Host.Core) {s t : M.State} (h : M.step s = .next t) (n : Nat) :
    M.run (n + 1) s = M.run n t := by simp only [Host.Core.run, h]

theorem AtSelfJump.run_eq {nnn : Addr12} {s : State} (h : AtSelfJump nnn s) (n : Nat) :
    Sys2Proof.core.run n s = .next (State.timerUpdate^[n] s) := by
  induction n generalizing s with
  | zero => rfl
  | succ n ih =>
    exact (run_succ_of_next Sys2Proof.core h.step_eq n).trans (ih h.timerUpdate)

/-- Settles O46: each cycle of the self-jump is one timer update, and n of them take n ticks. -/
theorem selfJumpRunsForeverAndTheDelayRunsOut : Obligations.SelfJumpRunsForeverAndTheDelayRunsOut := by
  intro n s nnn hin hrun hpc hw
  obtain ⟨_, _, hframe⟩ := timerUpdate_iterate_frame n s
  refine ⟨_, (AtSelfJump.mk hin hrun hpc hw).run_eq n, ?_⟩
  rw [hframe]
  exact ⟨rfl, hrun, rfl, rfl, fun _ => rfl, rfl, rfl, rfl, rfl, rfl, fun _ => rfl⟩

end Sys2Proof.Machine
end
